-- ==== Sys2Proof/Word.lean ====
section
/-! DEFINITION. The widths of the block's values (00_scope.md rules R6, R9). Every value is unsigned. -/

namespace Sys2Proof

/-- A general register, a timer, a memory byte or the immediate kk: 8 bits. -/
abbrev Byte := BitVec 8

/-- I, PC, a stack entry or an instruction word: 16 bits. -/
abbrev Word := BitVec 16

/-- A field x, y or n of an instruction word: 4 bits. -/
abbrev Nibble := BitVec 4

/-- The field nnn of an instruction word: a 12-bit address. -/
abbrev Addr12 := BitVec 12

/-- The fault record's address field: 17 bits (10_state.md rule R38). -/
abbrev FaultAddr := BitVec 17

end Sys2Proof
end

