-- ==== Sys2Proof/Syntax.lean ====
section
/-! DEFINITION. The instructions: one constructor per row of the opcode map (30_encoding.md rule R86), in its order.
The operand types are the fields of rules R81 and R83, so no operand can be out of its range. -/

namespace Sys2Proof

/-- The 34 instruction forms of rule R86. Register operands are the 4-bit fields x and y. -/
inductive Instr where
  /-- 00E0, CLS. -/
  | cls
  /-- 00EE, RET. -/
  | ret
  /-- 1nnn, JP nnn. -/
  | jp (nnn : Addr12)
  /-- 2nnn, CALL nnn. -/
  | call (nnn : Addr12)
  /-- 3xkk, SE Vx, kk. -/
  | seByte (x : Nibble) (kk : Byte)
  /-- 4xkk, SNE Vx, kk. -/
  | sneByte (x : Nibble) (kk : Byte)
  /-- 5xy0, SE Vx, Vy. -/
  | seReg (x y : Nibble)
  /-- 6xkk, LD Vx, kk. -/
  | ldByte (x : Nibble) (kk : Byte)
  /-- 7xkk, ADD Vx, kk. -/
  | addByte (x : Nibble) (kk : Byte)
  /-- 8xy0, LD Vx, Vy. -/
  | ldReg (x y : Nibble)
  /-- 8xy1, OR Vx, Vy. -/
  | orReg (x y : Nibble)
  /-- 8xy2, AND Vx, Vy. -/
  | andReg (x y : Nibble)
  /-- 8xy3, XOR Vx, Vy. -/
  | xorReg (x y : Nibble)
  /-- 8xy4, ADD Vx, Vy. -/
  | addReg (x y : Nibble)
  /-- 8xy5, SUB Vx, Vy. -/
  | subReg (x y : Nibble)
  /-- 8xy6, SHR Vx, Vy. -/
  | shrReg (x y : Nibble)
  /-- 8xy7, SUBN Vx, Vy. -/
  | subnReg (x y : Nibble)
  /-- 8xyE, SHL Vx, Vy. -/
  | shlReg (x y : Nibble)
  /-- 9xy0, SNE Vx, Vy. -/
  | sneReg (x y : Nibble)
  /-- Annn, LD I, nnn. -/
  | ldI (nnn : Addr12)
  /-- Bnnn, JP V0, nnn. -/
  | jpV0 (nnn : Addr12)
  /-- Cxkk, RND Vx, kk. -/
  | rndByte (x : Nibble) (kk : Byte)
  /-- Dxyn, DRW Vx, Vy, n. -/
  | drw (x y n : Nibble)
  /-- Ex9E, SKP Vx. -/
  | skp (x : Nibble)
  /-- ExA1, SKNP Vx. -/
  | sknp (x : Nibble)
  /-- Fx07, LD Vx, DT. -/
  | ldVxDt (x : Nibble)
  /-- Fx0A, LD Vx, K. -/
  | ldVxK (x : Nibble)
  /-- Fx15, LD DT, Vx. -/
  | ldDtVx (x : Nibble)
  /-- Fx18, LD ST, Vx. -/
  | ldStVx (x : Nibble)
  /-- Fx1E, ADD I, Vx. -/
  | addIVx (x : Nibble)
  /-- Fx29, LD F, Vx. -/
  | ldFVx (x : Nibble)
  /-- Fx33, LD B, Vx. -/
  | ldBVx (x : Nibble)
  /-- Fx55, LD [I], Vx: store V0..Vx. -/
  | stRegs (x : Nibble)
  /-- Fx65, LD Vx, [I]: load V0..Vx. -/
  | ldRegs (x : Nibble)
  deriving DecidableEq, Repr

end Sys2Proof
end

