-- ==== Sys2Proof/Decode.lean ====
section
/-! DEFINITION. The decoder (30_encoding.md rules R81 to R94), the encoder written from the same map (rule R86), and
the word each constructor's decoding is shown by. -/

namespace Sys2Proof

/-- Why bytes are not an instruction. -/
inductive DecodeError where
  /-- Fewer than two bytes: no 16-bit word stands there (rule R80). -/
  | truncated
  /-- The word matches no row of rule R86 (rule R91). -/
  | unknownOpcode (w : Word)
  deriving DecidableEq, Repr

/-- op, bits 15..12 (rule R81). -/
def fieldOp (w : Word) : Nibble := w.extractLsb' 12 4

/-- x, bits 11..8 (rule R81). -/
def fieldX (w : Word) : Nibble := w.extractLsb' 8 4

/-- y, bits 7..4 (rule R81). -/
def fieldY (w : Word) : Nibble := w.extractLsb' 4 4

/-- n, bits 3..0 (rule R81). -/
def fieldN (w : Word) : Nibble := w.extractLsb' 0 4

/-- kk, bits 7..0 (rule R81). -/
def fieldKK (w : Word) : Byte := w.extractLsb' 0 8

/-- nnn, bits 11..0 (rule R81). -/
def fieldNNN (w : Word) : Addr12 := w.extractLsb' 0 12

/-- Family 0x0: the whole word is compared (rule R87). -/
def decodeFamily0 (w : Word) : Except DecodeError Instr :=
  match w.toNat with
  | 0x00E0 => .ok .cls
  | 0x00EE => .ok .ret
  | _ => .error (.unknownOpcode w)

/-- Families 0x5 and 0x9: the nibble n must be 0 (rule R88). -/
def decodeNibbleZero (w : Word) (i : Instr) : Except DecodeError Instr :=
  match (fieldN w).toNat with
  | 0x0 => .ok i
  | _ => .error (.unknownOpcode w)

/-- Family 0x8: the nibble n selects the operation (rule R89). -/
def decodeFamily8 (w : Word) : Except DecodeError Instr :=
  match (fieldN w).toNat with
  | 0x0 => .ok (.ldReg (fieldX w) (fieldY w))
  | 0x1 => .ok (.orReg (fieldX w) (fieldY w))
  | 0x2 => .ok (.andReg (fieldX w) (fieldY w))
  | 0x3 => .ok (.xorReg (fieldX w) (fieldY w))
  | 0x4 => .ok (.addReg (fieldX w) (fieldY w))
  | 0x5 => .ok (.subReg (fieldX w) (fieldY w))
  | 0x6 => .ok (.shrReg (fieldX w) (fieldY w))
  | 0x7 => .ok (.subnReg (fieldX w) (fieldY w))
  | 0xE => .ok (.shlReg (fieldX w) (fieldY w))
  | _ => .error (.unknownOpcode w)

/-- Family 0xE: the low byte selects the test (rule R90). -/
def decodeFamilyE (w : Word) : Except DecodeError Instr :=
  match (fieldKK w).toNat with
  | 0x9E => .ok (.skp (fieldX w))
  | 0xA1 => .ok (.sknp (fieldX w))
  | _ => .error (.unknownOpcode w)

/-- Family 0xF: the low byte selects the operation (rule R90). -/
def decodeFamilyF (w : Word) : Except DecodeError Instr :=
  match (fieldKK w).toNat with
  | 0x07 => .ok (.ldVxDt (fieldX w))
  | 0x0A => .ok (.ldVxK (fieldX w))
  | 0x15 => .ok (.ldDtVx (fieldX w))
  | 0x18 => .ok (.ldStVx (fieldX w))
  | 0x1E => .ok (.addIVx (fieldX w))
  | 0x29 => .ok (.ldFVx (fieldX w))
  | 0x33 => .ok (.ldBVx (fieldX w))
  | 0x55 => .ok (.stRegs (fieldX w))
  | 0x65 => .ok (.ldRegs (fieldX w))
  | _ => .error (.unknownOpcode w)

/-- Decode(w) of rule R94: dispatch on op, then on the family's secondary field (rule R85). -/
def decodeWord (w : Word) : Except DecodeError Instr :=
  match (fieldOp w).toNat with
  | 0x0 => decodeFamily0 w
  | 0x1 => .ok (.jp (fieldNNN w))
  | 0x2 => .ok (.call (fieldNNN w))
  | 0x3 => .ok (.seByte (fieldX w) (fieldKK w))
  | 0x4 => .ok (.sneByte (fieldX w) (fieldKK w))
  | 0x5 => decodeNibbleZero w (.seReg (fieldX w) (fieldY w))
  | 0x6 => .ok (.ldByte (fieldX w) (fieldKK w))
  | 0x7 => .ok (.addByte (fieldX w) (fieldKK w))
  | 0x8 => decodeFamily8 w
  | 0x9 => decodeNibbleZero w (.sneReg (fieldX w) (fieldY w))
  | 0xA => .ok (.ldI (fieldNNN w))
  | 0xB => .ok (.jpV0 (fieldNNN w))
  | 0xC => .ok (.rndByte (fieldX w) (fieldKK w))
  | 0xD => .ok (.drw (fieldX w) (fieldY w) (fieldN w))
  | 0xE => decodeFamilyE w
  | 0xF => decodeFamilyF w
  | _ => .error (.unknownOpcode w)

/-- The word two bytes form, big-endian (20_memory.md rule R63). -/
def wordOfBytes (hi lo : Byte) : Word := hi ++ lo

/-- The byte of a word that lies at the lower address (rule R63). -/
def highByte (w : Word) : Byte := w.extractLsb' 8 8

/-- The byte of a word that lies at the higher address (rule R63). -/
def lowByte (w : Word) : Byte := w.extractLsb' 0 8

/-- The decoder on bytes: the first two, the first at the lower address, and the bytes that follow them. -/
def decode : List Byte → Except DecodeError (Instr × List Byte)
  | hi :: lo :: rest => (decodeWord (wordOfBytes hi lo)).map (·, rest)
  | _ => .error .truncated

/-- The instruction the decoder reads from a table word of `nbits` bits (bits above them 0), laid out as it is stored. -/
def decodeTableWord (nbits w : Nat) : Option Instr :=
  let word : Word := BitVec.ofNat 16 (w % 2 ^ nbits)
  match decode [highByte word, lowByte word] with
  | .ok (i, _) => some i
  | .error _ => none

/-- Format NNN (rule R84): op and nnn. -/
def formatNNN (op : Nibble) (nnn : Addr12) : Word := op ++ nnn

/-- Formats XKK and X (rule R84): op, x and the low byte. -/
def formatXKK (op x : Nibble) (kk : Byte) : Word := op ++ x ++ kk

/-- Formats XYN and XY (rule R84): op, x, y and the low nibble. -/
def formatXYN (op x y n : Nibble) : Word := op ++ x ++ y ++ n

/-- The word of an instruction (rules R84, R86). -/
def encode : Instr → Word
  | .cls => 0x00E0
  | .ret => 0x00EE
  | .jp nnn => formatNNN 0x1 nnn
  | .call nnn => formatNNN 0x2 nnn
  | .seByte x kk => formatXKK 0x3 x kk
  | .sneByte x kk => formatXKK 0x4 x kk
  | .seReg x y => formatXYN 0x5 x y 0x0
  | .ldByte x kk => formatXKK 0x6 x kk
  | .addByte x kk => formatXKK 0x7 x kk
  | .ldReg x y => formatXYN 0x8 x y 0x0
  | .orReg x y => formatXYN 0x8 x y 0x1
  | .andReg x y => formatXYN 0x8 x y 0x2
  | .xorReg x y => formatXYN 0x8 x y 0x3
  | .addReg x y => formatXYN 0x8 x y 0x4
  | .subReg x y => formatXYN 0x8 x y 0x5
  | .shrReg x y => formatXYN 0x8 x y 0x6
  | .subnReg x y => formatXYN 0x8 x y 0x7
  | .shlReg x y => formatXYN 0x8 x y 0xE
  | .sneReg x y => formatXYN 0x9 x y 0x0
  | .ldI nnn => formatNNN 0xA nnn
  | .jpV0 nnn => formatNNN 0xB nnn
  | .rndByte x kk => formatXKK 0xC x kk
  | .drw x y n => formatXYN 0xD x y n
  | .skp x => formatXKK 0xE x 0x9E
  | .sknp x => formatXKK 0xE x 0xA1
  | .ldVxDt x => formatXKK 0xF x 0x07
  | .ldVxK x => formatXKK 0xF x 0x0A
  | .ldDtVx x => formatXKK 0xF x 0x15
  | .ldStVx x => formatXKK 0xF x 0x18
  | .addIVx x => formatXKK 0xF x 0x1E
  | .ldFVx x => formatXKK 0xF x 0x29
  | .ldBVx x => formatXKK 0xF x 0x33
  | .stRegs x => formatXKK 0xF x 0x55
  | .ldRegs x => formatXKK 0xF x 0x65

/-- The two bytes of an instruction in the order they are stored (rules R63, R80). -/
def encodeBytes (i : Instr) : List Byte := [highByte (encode i), lowByte (encode i)]

/-! Each constructor's decoding, shown by a word written out bit by bit from its row's encoding in opcode_table.json. -/

theorem decode_word_cls : decodeWord 0b0000000011100000 = .ok .cls := by decide
theorem decode_word_ret : decodeWord 0b0000000011101110 = .ok .ret := by decide
theorem decode_word_jp : decodeWord 0b0001001000110100 = .ok (.jp 0x234) := by decide
theorem decode_word_call : decodeWord 0b0010001100000000 = .ok (.call 0x300) := by decide
theorem decode_word_seByte : decodeWord 0b0011101001000010 = .ok (.seByte 0xA 0x42) := by decide
theorem decode_word_sneByte : decodeWord 0b0100001100010011 = .ok (.sneByte 0x3 0x13) := by decide
theorem decode_word_seReg : decodeWord 0b0101000100100000 = .ok (.seReg 0x1 0x2) := by decide
theorem decode_word_ldByte : decodeWord 0b0110101001000010 = .ok (.ldByte 0xA 0x42) := by decide
theorem decode_word_addByte : decodeWord 0b0111000000000001 = .ok (.addByte 0x0 0x01) := by decide
theorem decode_word_ldReg : decodeWord 0b1000000100100000 = .ok (.ldReg 0x1 0x2) := by decide
theorem decode_word_orReg : decodeWord 0b1000000100100001 = .ok (.orReg 0x1 0x2) := by decide
theorem decode_word_andReg : decodeWord 0b1000000100100010 = .ok (.andReg 0x1 0x2) := by decide
theorem decode_word_xorReg : decodeWord 0b1000000100100011 = .ok (.xorReg 0x1 0x2) := by decide
theorem decode_word_addReg : decodeWord 0b1000000100100100 = .ok (.addReg 0x1 0x2) := by decide
theorem decode_word_subReg : decodeWord 0b1000000100100101 = .ok (.subReg 0x1 0x2) := by decide
theorem decode_word_shrReg : decodeWord 0b1000000100100110 = .ok (.shrReg 0x1 0x2) := by decide
theorem decode_word_subnReg : decodeWord 0b1000000100100111 = .ok (.subnReg 0x1 0x2) := by decide
theorem decode_word_shlReg : decodeWord 0b1000000100101110 = .ok (.shlReg 0x1 0x2) := by decide
theorem decode_word_sneReg : decodeWord 0b1001000100100000 = .ok (.sneReg 0x1 0x2) := by decide
theorem decode_word_ldI : decodeWord 0b1010001011110000 = .ok (.ldI 0x2F0) := by decide
theorem decode_word_jpV0 : decodeWord 0b1011001100000000 = .ok (.jpV0 0x300) := by decide
theorem decode_word_rndByte : decodeWord 0b1100001100001111 = .ok (.rndByte 0x3 0x0F) := by decide
theorem decode_word_drw : decodeWord 0b1101000100100101 = .ok (.drw 0x1 0x2 0x5) := by decide
theorem decode_word_skp : decodeWord 0b1110010110011110 = .ok (.skp 0x5) := by decide
theorem decode_word_sknp : decodeWord 0b1110010110100001 = .ok (.sknp 0x5) := by decide
theorem decode_word_ldVxDt : decodeWord 0b1111001100000111 = .ok (.ldVxDt 0x3) := by decide
theorem decode_word_ldVxK : decodeWord 0b1111010100001010 = .ok (.ldVxK 0x5) := by decide
theorem decode_word_ldDtVx : decodeWord 0b1111000100010101 = .ok (.ldDtVx 0x1) := by decide
theorem decode_word_ldStVx : decodeWord 0b1111001000011000 = .ok (.ldStVx 0x2) := by decide
theorem decode_word_addIVx : decodeWord 0b1111010000011110 = .ok (.addIVx 0x4) := by decide
theorem decode_word_ldFVx : decodeWord 0b1111011100101001 = .ok (.ldFVx 0x7) := by decide
theorem decode_word_ldBVx : decodeWord 0b1111001000110011 = .ok (.ldBVx 0x2) := by decide
theorem decode_word_stRegs : decodeWord 0b1111001001010101 = .ok (.stRegs 0x2) := by decide
theorem decode_word_ldRegs : decodeWord 0b1111001001100101 = .ok (.ldRegs 0x2) := by decide

end Sys2Proof
end

