-- ==== Sys2Proof/Config.lean ====
section
/-! DEFINITION. What an implementation fixes (00_scope.md rule R7) and the free values the spec leaves open. -/

namespace Sys2Proof

/-- QUIRK_INDEX_INC: whether and by how much Fx55 and Fx65 advance I (rules R7, R226). -/
inductive IndexIncMode where
  | none
  | xPlus1
  | x
  deriving DecidableEq, Repr

/-- The block's open parameters (rule R7), fixed for the life of the block (70_reset_and_hazards.md rule R323). The
state carries one and no operation changes it (log entry 1, DESIGN CHOICE). -/
structure Config where
  /-- QUIRK_VF_RESET: 8xy1, 8xy2 and 8xy3 also write VF := 0. -/
  quirkVfReset : Bool
  /-- QUIRK_SHIFT_VX: 8xy6 and 8xyE shift Vx instead of Vy. -/
  quirkShiftVx : Bool
  /-- QUIRK_INDEX_INC. -/
  quirkIndexInc : IndexIncMode
  /-- FONTSET: the 80 bytes at 0x000..0x04F at reset. -/
  fontset : Vector Byte 80
  deriving DecidableEq, Repr

/-- Free value: the random byte of the `k`-th draw (60_exceptions.md rule R285, 93_implementation_defined.md I5).
Nothing constrains it (log entry 2). -/
opaque Config.rndByte : Nat → Byte

/-- Free value: whether the access at address `a` of the faulting Fx33, Fx55 or Fx65 of the `k`-th draw took place
(60_exceptions.md rule R275, 93_implementation_defined.md I8). Nothing constrains it (log entry 3). -/
opaque Config.accessLanded : Nat → Nat → Bool

end Sys2Proof
end

