-- ==== Sys2Proof/Machine/Font.lean ====
section
/-! DEFINITION. The default fontset and the reference configuration (20_memory.md rule R70, 00_scope.md rule R7). -/

namespace Sys2Proof.Machine

/-- Glyphs 0 to 7 of rule R70's table, one row of pixels a byte. -/
def defaultGlyphsLow : List Byte :=
  [0xF0, 0x90, 0x90, 0x90, 0xF0] ++ [0x20, 0x60, 0x20, 0x20, 0x70] ++
  [0xF0, 0x10, 0xF0, 0x80, 0xF0] ++ [0xF0, 0x10, 0xF0, 0x10, 0xF0] ++
  [0x90, 0x90, 0xF0, 0x10, 0x10] ++ [0xF0, 0x80, 0xF0, 0x10, 0xF0] ++
  [0xF0, 0x80, 0xF0, 0x90, 0xF0] ++ [0xF0, 0x10, 0x20, 0x40, 0x40]

/-- Glyphs 8 to F of rule R70's table. -/
def defaultGlyphsHigh : List Byte :=
  [0xF0, 0x90, 0xF0, 0x90, 0xF0] ++ [0xF0, 0x90, 0xF0, 0x10, 0xF0] ++
  [0xF0, 0x90, 0xF0, 0x90, 0x90] ++ [0xE0, 0x90, 0xE0, 0x90, 0xE0] ++
  [0xF0, 0x80, 0x80, 0x80, 0xF0] ++ [0xE0, 0x90, 0x90, 0x90, 0xE0] ++
  [0xF0, 0x80, 0xF0, 0x80, 0xF0] ++ [0xF0, 0x80, 0xF0, 0x80, 0x80]

/-- The 80 bytes of the default FONTSET, glyph d at 5 d (rule R70). -/
def defaultFont : List Byte := defaultGlyphsLow ++ defaultGlyphsHigh

/-- The reference configuration (rule R7): the behaviour the source's opcode table states, and the default font. -/
def referenceConfig : Config where
  quirkVfReset := false
  quirkShiftVx := false
  quirkIndexInc := .none
  fontset := ⟨defaultFont.toArray, rfl⟩

end Sys2Proof.Machine
end

