-- ==== Sys2Proof/Machine/Memory.lean ====
section
/-! DEFINITION. Memory: 4096 bytes at addresses 0..4095 (20_memory.md rules R60 to R62), held as the addresses that
differ from an unlisted address's byte, strictly rising. -/

namespace Sys2Proof.Machine

/-- The memory's contents: (address, byte) pairs in the canonical form of `Memory.wf`. -/
abbrev Memory := List Host.Cell

/-- What an unlisted address reads as: the reset contents under the default FONTSET, that is the font at 0x000..0x04F
and 0 elsewhere (20_memory.md rule R68, log entry 4). -/
def Memory.unlisted (a : Nat) : Byte := defaultFont.getD a 0

/-- M[a]. -/
def Memory.get : Memory → Nat → Byte
  | [], a => Memory.unlisted a
  | (b, v) :: m, a => if b = a then v else Memory.get m a

/-- The memory with no entry for `a`. -/
def Memory.erase : Memory → Nat → Memory
  | [], _ => []
  | (b, v) :: m, a => if b = a then Memory.erase m a else (b, v) :: Memory.erase m a

/-- The memory with an entry for `a` put in its place in the order. -/
def Memory.insert : Memory → Nat → Byte → Memory
  | [], a, v => [(a, v)]
  | (b, w) :: m, a, v => if a < b then (a, v) :: (b, w) :: m else (b, w) :: Memory.insert m a v

/-- M[a] <- v, keeping the canonical form: the value an unlisted address reads as removes the entry. -/
def Memory.set (m : Memory) (a : Nat) (v : Byte) : Memory :=
  if v = Memory.unlisted a then m.erase a else (m.erase a).insert a v

/-- The canonical form from address `lo` up: strictly rising addresses below MEM_SIZE = 4096, no entry that says what an
unlisted address says. -/
def Memory.wfFrom : Nat → Memory → Bool
  | _, [] => true
  | lo, (a, v) :: m => decide (lo ≤ a) && decide (a < 4096) && (v != Memory.unlisted a) && Memory.wfFrom (a + 1) m

/-- The canonical form of a memory. -/
def Memory.wf (m : Memory) : Bool := Memory.wfFrom 0 m

/-- The bytes written one after another from `a` up. -/
def Memory.setList : Memory → Nat → List Byte → Memory
  | m, _, [] => m
  | m, a, b :: bs => Memory.setList (m.set a b) (a + 1) bs

/-- MemRead(a, 1) (00_scope.md rule R10, 20_memory.md rule R61): the byte, or the address where it is out of bounds. -/
def memRead (m : Memory) (a : Nat) : Except Nat Byte :=
  if a < 4096 then .ok (m.get a) else .error a

/-- MemWrite(a, 1, v) (rules R10, R61): the memory after it, or the address where it is out of bounds. -/
def memWrite (m : Memory) (a : Nat) (v : Byte) : Except Nat Memory :=
  if a < 4096 then .ok (m.set a v) else .error a

/-- Reads of `n` bytes from `a` up, in increasing address order; the first address out of bounds ends them (rule R79). -/
def readRun (m : Memory) : Nat → Nat → Except Nat (List Byte)
  | _, 0 => .ok []
  | a, n + 1 =>
    match memRead m a with
    | .error bad => .error bad
    | .ok b =>
      match readRun m (a + 1) n with
      | .error bad => .error bad
      | .ok bs => .ok (b :: bs)

/-- Writes of bytes from `a` up, in increasing address order; the first address out of bounds ends them (rule R79). -/
def writeRun : Memory → Nat → List Byte → Except Nat Memory
  | m, _, [] => .ok m
  | m, a, b :: bs =>
    match memWrite m a b with
    | .error bad => .error bad
    | .ok m' => writeRun m' (a + 1) bs

/-- What is left of a run of writes that faulted: each write below the first address out of bounds took place or not,
as the free value of draw `k` says (60_exceptions.md rule R275, log entry 3). -/
def writeLanded (k : Nat) : Memory → Nat → List Byte → Memory
  | m, _, [] => m
  | m, a, b :: bs =>
    if a < 4096 then writeLanded k (if Config.accessLanded k a then m.set a b else m) (a + 1) bs else m

end Sys2Proof.Machine
end

