-- ==== Sys2Proof/Machine/State.lean ====
section
/-! DEFINITION. The state (10_state.md rules R20 to R43), its reset value (rule R42) and the reasons a step can stop. -/

namespace Sys2Proof.Machine

/-- The framebuffer FB[r][c]: 32 rows of 64 pixels, true means on (rule R34). -/
abbrev Framebuffer := Vector (Vector Bool 64) 32

/-- The causes of a fault (60_exceptions.md rule R271). -/
inductive Cause where
  | memBounds
  | stackOverflow
  | stackUnderflow
  | unknownOpcode
  | fontDigit
  /-- No instruction can cause it (10_state.md rule R22); kept as the spec's cause code 6. -/
  | regIndex
  deriving DecidableEq, Repr

/-- The fault record while FAULTED is 1 (rule R38, log entry 11). -/
structure FaultRecord where
  /-- CAUSE. -/
  cause : Cause
  /-- FAULT_PC. -/
  pc : Word
  /-- FAULT_WORD where FAULT_WORD_VALID is 1, none where it is 0. -/
  word : Option Word
  /-- FAULT_ADDR. -/
  addr : FaultAddr
  deriving DecidableEq, Repr

/-- The machine's state (rule R43), with the configuration a step takes as a parameter (log entry 1) and the counter of
free values (log entry 2). -/
structure State where
  /-- V0..VF (rule R20). -/
  v : Vector Byte 16
  /-- The index register I (rule R24). -/
  i : Word
  /-- The program counter (rule R25). -/
  pc : Word
  /-- The call stack's entries S[0..15] (rule R30). -/
  stack : Vector Word 16
  /-- The stack depth SP, 0..16 (rule R30). -/
  sp : Fin 17
  /-- The delay timer (rule R32). -/
  dt : Byte
  /-- The sound timer (rule R32). -/
  st : Byte
  /-- The key latch K[0..15] (rule R33). -/
  keys : Vector Bool 16
  /-- The framebuffer (rule R34). -/
  fb : Framebuffer
  /-- The memory (rule R35). -/
  mem : Memory
  /-- The fault record, none while FAULTED is 0 (rule R38). -/
  fault : Option FaultRecord
  /-- The configuration (00_scope.md rule R7); no operation changes it. -/
  cfg : Config
  /-- The model's own field: how many free values have been drawn (log entry 2). -/
  draws : Nat
  deriving DecidableEq, Repr

/-- The reasons the machine stops outside the spec's own fault mechanism. There is none: every fault of the spec is
taken as a next state with the fault record written (60_exceptions.md rule R274), so nothing raises one (log entry 6). Safe. -/
inductive Fault where
  deriving DecidableEq, Repr

/-- The reasons an instruction has no meaning. -/
inductive Refusal where
  /-- Raised by an arm of exec whose instruction has no meaning in the model. Safe. No arm raises it now. -/
  | notModelled (mnemonic : String)
  deriving DecidableEq, Repr

/-- The outcome of one step of this machine. -/
abbrev Out := Host.Outcome State Fault Refusal

/-- The state RESET leaves under a configuration (rule R42, 70_reset_and_hazards.md rule R320). -/
def State.resetWith (cfg : Config) : State where
  v := Vector.replicate 16 0
  i := 0
  pc := 0x200
  stack := Vector.replicate 16 0
  sp := 0
  dt := 0
  st := 0
  keys := Vector.replicate 16 false
  fb := Vector.replicate 32 (Vector.replicate 64 false)
  mem := Memory.setList [] 0 cfg.fontset.toList
  fault := none
  cfg := cfg
  draws := 0

/-- The machine right after reset, in the reference configuration (log entry 1). -/
def State.reset : State := State.resetWith referenceConfig

end Sys2Proof.Machine
end

