-- ==== Sys2Proof/Machine/Ops.lean ====
section
/-! DEFINITION. The named operations over registers, the program counter, the stack, the key latch and the framebuffer,
and fault entry, the block's one exception mechanism (10_state.md, 60_exceptions.md rule R274). -/

namespace Sys2Proof.Machine

/-- V[x] (10_state.md rule R20). -/
def State.getV (s : State) (x : Nibble) : Byte := s.v[x.toNat]'x.isLt

/-- V[x] <- b (rule R20). -/
def State.setV (s : State) (x : Nibble) (b : Byte) : State := { s with v := s.v.set x.toNat b x.isLt }

/-- pc <- target. -/
def State.setPc (s : State) (target : Word) : State := { s with pc := target }

/-- I <- a. -/
def State.setI (s : State) (a : Word) : State := { s with i := a }

/-- `advance`: pc <- (pc + 2) mod 65536 (rule R27). -/
def State.advance (s : State) : State := s.setPc (s.pc + 2)

/-- A conditional skip's effect: pc + 4 if the condition holds, pc + 2 if not (43_skip.md rule R160). -/
def State.skipIf (s : State) (c : Bool) : State := s.setPc (if c then s.pc + 4 else s.pc + 2)

/-- Push(a) (rule R30). -/
def State.push (s : State) (a : Word) : Except Cause State :=
  if h : s.sp.val < 16 then
    .ok { s with stack := s.stack.set s.sp.val a h, sp := ⟨s.sp.val + 1, by omega⟩ }
  else .error .stackOverflow

/-- Pop() (rule R30): the popped entry and the state after it. -/
def State.pop (s : State) : Except Cause (Word × State) :=
  if h : 0 < s.sp.val then
    .ok (s.stack[s.sp.val - 1]'(by omega), { s with sp := ⟨s.sp.val - 1, by omega⟩ })
  else .error .stackUnderflow

/-- Fault entry (60_exceptions.md rule R274): the record is written, with the pc of the instruction, its word if it was
fetched and the address for MEM_BOUNDS (0 for every other cause); nothing else changes. -/
def State.raise (s : State) (cause : Cause) (word : Option Word) (addr : Nat) : State :=
  { s with fault := some { cause := cause, pc := s.pc, word := word, addr := BitVec.ofNat 17 addr } }

/-- The cause's code (rule R271). -/
def Cause.code : Cause → BitVec 3
  | .memBounds => 1
  | .stackOverflow => 2
  | .stackUnderflow => 3
  | .unknownOpcode => 4
  | .fontDigit => 5
  | .regIndex => 6

/-- is_pressed(k) (60_exceptions.md rule R283): a code above 15 is not pressed. -/
def State.isPressed (s : State) (k : Nat) : Bool :=
  if h : k < 16 then s.keys[k] else false

/-- get_pressed_key() (rule R283): the least pressed key, or none. -/
def State.pressedKey (s : State) : Option Nat := (List.range 16).find? s.isPressed

/-- FB[r][c] (10_state.md rule R34). -/
def Framebuffer.pixel (fb : Framebuffer) (r : Fin 32) (c : Fin 64) : Bool := (fb[r.val])[c.val]

/-- FB[r][c] <- b (rule R34). -/
def Framebuffer.setPixel (fb : Framebuffer) (r : Fin 32) (c : Fin 64) (b : Bool) : Framebuffer :=
  fb.set r.val ((fb[r.val]).set c.val b)

/-- A framebuffer with every pixel off. -/
def Framebuffer.clear : Framebuffer := Vector.replicate 32 (Vector.replicate 64 false)

/-- One turn of DrawSprite's inner loop (41_display.md rule R120): the sprite's bit at (row, col), most significant bit
leftmost, flips the pixel it falls on; a pixel turned off is a collision. -/
def drawBit (cx cy : Nat) (b : Byte) (row col : Nat) (d : Framebuffer × Bool) : Framebuffer × Bool :=
  if b.getLsbD (7 - col) then
    let r := Fin.ofNat 32 (cy + row)
    let c := Fin.ofNat 64 (cx + col)
    (Framebuffer.setPixel d.1 r c (!Framebuffer.pixel d.1 r c), d.2 || Framebuffer.pixel d.1 r c)
  else d

/-- DrawSprite's inner loop: the 8 columns of one row (rule R120). -/
def drawRow (cx cy : Nat) (b : Byte) (row : Nat) (d : Framebuffer × Bool) : Framebuffer × Bool :=
  (List.range 8).foldl (fun d col => drawBit cx cy b row col d) d

/-- DrawSprite's outer loop, from row `row` of the sprite on (rule R120). -/
def drawRows (cx cy : Nat) : Nat → List Byte → Framebuffer × Bool → Framebuffer × Bool
  | _, [], d => d
  | row, b :: bs, d => drawRows cx cy (row + 1) bs (drawRow cx cy b row d)

/-- DrawSprite(cx, cy, bytes) (rule R120): the framebuffer after it, and whether a lit pixel was turned off. -/
def drawSprite (fb : Framebuffer) (cx cy : Byte) (bytes : List Byte) : Framebuffer × Bool :=
  drawRows cx.toNat cy.toNat 0 bytes (fb, false)

end Sys2Proof.Machine
end

