-- ==== Sys2Proof/Machine/Flags.lean ====
section
/-! DEFINITION. The flag computations: what an instruction writes to VF, and in which order with its result
(10_state.md rules R21 and R36, 44_alu.md rules R180 and R181). -/

namespace Sys2Proof.Machine

/-- FLAG_REG: VF (00_scope.md rule R6). -/
def flagReg : Nibble := 0xF

/-- A flag as VF holds it: 1 or 0. -/
def flagByte (c : Bool) : Byte := if c then 1 else 0

/-- VF <- the flag. -/
def State.setFlag (s : State) (c : Bool) : State := s.setV flagReg (flagByte c)

/-- The carry of an addition: the exact sum exceeds 255 (rule R180). -/
def carry (a b : Byte) : Bool := decide (a.toNat + b.toNat > 255)

/-- The not-borrow of the subtraction a - b: a ≥ b (rule R180). -/
def notBorrow (a b : Byte) : Bool := decide (a.toNat ≥ b.toNat)

/-- The bit a right shift by one shifts out: bit 0. -/
def shiftedOutRight (v : Byte) : Bool := v.getLsbD 0

/-- The bit a left shift by one shifts out: bit 7. -/
def shiftedOutLeft (v : Byte) : Bool := v.getLsbD 7

/-- Vx first, then VF (8xy4): VF ends as the flag when x = 0xF (rule R181). -/
def State.resultThenFlag (s : State) (x : Nibble) (r : Byte) (c : Bool) : State := (s.setV x r).setFlag c

/-- VF first, then Vx (8xy5, 8xy6, 8xy7, 8xyE): VF ends as the result when x = 0xF (rule R181). -/
def State.flagThenResult (s : State) (x : Nibble) (c : Bool) (r : Byte) : State := (s.setFlag c).setV x r

/-- Vx, then VF := 0 under QUIRK_VF_RESET (8xy1, 8xy2, 8xy3; rules R181, R182). -/
def State.resultThenVfReset (s : State) (x : Nibble) (r : Byte) : State :=
  if s.cfg.quirkVfReset then (s.setV x r).setFlag false else s.setV x r

end Sys2Proof.Machine
end

