-- ==== Sys2Proof/Machine/Operands.lean ====
section
/-! DEFINITION. The operand forms (30_encoding.md rule R83) and the one addressing mode, I + j (45_index_memory.md). -/

namespace Sys2Proof.Machine

/-- zext_16(nnn) (30_encoding.md rule R83). -/
def addrOperand (nnn : Addr12) : Word := nnn.zeroExtend 16

/-- zext_16 of a byte. -/
def byteOperand (b : Byte) : Word := b.zeroExtend 16

/-- The source of 8xy6 and 8xyE: Vy, or Vx under QUIRK_SHIFT_VX (44_alu.md rules R191, R193). -/
def State.shiftSource (s : State) (x y : Nibble) : Byte :=
  if s.cfg.quirkShiftVx then s.getV x else s.getV y

/-- V0..Vx in increasing order, the bytes Fx55 stores (45_index_memory.md rule R224). -/
def State.regsUpTo (s : State) (x : Nibble) : List Byte :=
  (List.range (x.toNat + 1)).map fun j => s.getV (BitVec.ofNat 4 j)

/-- V[j], V[j+1], ... <- the bytes, in increasing order (rule R225). -/
def State.setRegs : State → Nat → List Byte → State
  | s, _, [] => s
  | s, j, b :: bs => State.setRegs (s.setV (BitVec.ofNat 4 j) b) (j + 1) bs

/-- The hundreds, tens and ones of a byte, the bytes Fx33 stores (rule R223). -/
def bcdDigits (v : Byte) : List Byte :=
  [BitVec.ofNat 8 (v.toNat / 100), BitVec.ofNat 8 (v.toNat / 10 % 10), BitVec.ofNat 8 (v.toNat % 10)]

/-- FontAddr(d) (20_memory.md rule R69). -/
def fontAddr (d : Byte) : Except Cause Word :=
  if d.toNat > 0xF then .error .fontDigit else .ok (BitVec.ofNat 16 (5 * d.toNat))

/-- IndexInc(a, x) (45_index_memory.md rule R226). -/
def State.indexInc (s : State) (a : Nat) (x : Nibble) : State :=
  match s.cfg.quirkIndexInc with
  | .none => s
  | .xPlus1 => s.setI (BitVec.ofNat 16 (a + x.toNat + 1))
  | .x => s.setI (BitVec.ofNat 16 (a + x.toNat))

/-- The stores of Fx33 and Fx55: the bytes to I, I+1, ... in increasing order, then what the instruction does next. Where
an address is out of bounds MEM_BOUNDS is raised for instruction word `w`, and each store below that address took place
or not (20_memory.md rule R79, 60_exceptions.md rule R275). -/
def State.storeThen (s : State) (w : Word) (bytes : List Byte) (next : State → State) : State :=
  match writeRun s.mem s.i.toNat bytes with
  | .ok m => next { s with mem := m }
  | .error bad =>
    { s with mem := writeLanded s.draws s.mem s.i.toNat bytes, draws := s.draws + 1 }.raise .memBounds (some w) bad

/-- What is left of the loads of an Fx65 that faulted: each load below the first address out of bounds took place or
not, as the free value of draw `k` says (60_exceptions.md rule R275, log entry 3). -/
def State.loadLanded (k : Nat) : State → Nat → Nat → Nat → State
  | s, _, _, 0 => s
  | s, a, j, n + 1 =>
    if a < 4096 then
      State.loadLanded k (if Config.accessLanded k a then s.setV (BitVec.ofNat 4 j) (s.mem.get a) else s) (a + 1) (j + 1) n
    else s

/-- The loads of Fx65: V0..Vx from I, I+1, ... in increasing order, then what the instruction does next; MEM_BOUNDS as
for the stores. -/
def State.loadThen (s : State) (w : Word) (x : Nibble) (next : State → State) : State :=
  match readRun s.mem s.i.toNat (x.toNat + 1) with
  | .ok bytes => next (s.setRegs 0 bytes)
  | .error bad =>
    { s.loadLanded s.draws s.i.toNat 0 (x.toNat + 1) with draws := s.draws + 1 }.raise .memBounds (some w) bad

/-- The sprite bytes of Dxyn, M[I..I+n-1] (41_display.md rule R122): with n = 0 no byte is read, but an I out of bounds
is still an error (92_eei_decisions.md D9). -/
def State.spriteBytes (s : State) (n : Nibble) : Except Nat (List Byte) :=
  if n = 0 ∧ 4096 ≤ s.i.toNat then .error s.i.toNat else readRun s.mem s.i.toNat n.toNat

end Sys2Proof.Machine
end

