-- ==== Sys2Proof/Machine/Alu.lean ====
section
/-! DEFINITION. The register and ALU instructions 6xkk, 7xkk, 8xy0 to 8xyE and Cxkk (44_alu.md). Every operand is read
from the state before the instruction (rule R181). -/

namespace Sys2Proof.Machine

/-- 6xkk (rule R183). -/
def execLdByte (x : Nibble) (kk : Byte) (s : State) : Out := .next (s.setV x kk).advance

/-- 7xkk (rule R184): no flag. -/
def execAddByte (x : Nibble) (kk : Byte) (s : State) : Out := .next (s.setV x (s.getV x + kk)).advance

/-- 8xy0 (rule R185). -/
def execLdReg (x y : Nibble) (s : State) : Out := .next (s.setV x (s.getV y)).advance

/-- 8xy1 (rule R186). -/
def execOrReg (x y : Nibble) (s : State) : Out := .next (s.resultThenVfReset x (s.getV x ||| s.getV y)).advance

/-- 8xy2 (rule R187). -/
def execAndReg (x y : Nibble) (s : State) : Out := .next (s.resultThenVfReset x (s.getV x &&& s.getV y)).advance

/-- 8xy3 (rule R188). -/
def execXorReg (x y : Nibble) (s : State) : Out := .next (s.resultThenVfReset x (s.getV x ^^^ s.getV y)).advance

/-- 8xy4 (rule R189): Vx, then VF := carry. -/
def execAddReg (x y : Nibble) (s : State) : Out :=
  .next (s.resultThenFlag x (s.getV x + s.getV y) (carry (s.getV x) (s.getV y))).advance

/-- 8xy5 (rule R190): VF := not borrow, then Vx. -/
def execSubReg (x y : Nibble) (s : State) : Out :=
  .next (s.flagThenResult x (notBorrow (s.getV x) (s.getV y)) (s.getV x - s.getV y)).advance

/-- 8xy6 (rule R191): VF := bit 0 of the source, then Vx. -/
def execShrReg (x y : Nibble) (s : State) : Out :=
  .next (s.flagThenResult x (shiftedOutRight (s.shiftSource x y)) (s.shiftSource x y >>> 1)).advance

/-- 8xy7 (rule R192): VF := not borrow, then Vx := Vy - Vx. -/
def execSubnReg (x y : Nibble) (s : State) : Out :=
  .next (s.flagThenResult x (notBorrow (s.getV y) (s.getV x)) (s.getV y - s.getV x)).advance

/-- 8xyE (rule R193): VF := bit 7 of the source, then Vx. -/
def execShlReg (x y : Nibble) (s : State) : Out :=
  .next (s.flagThenResult x (shiftedOutLeft (s.shiftSource x y)) (s.shiftSource x y <<< 1)).advance

/-- Cxkk with the random byte given (rule R194); the draw counter moves on, so that the next Cxkk takes a fresh byte. -/
def State.applyRnd (s : State) (rnd : Byte) (x : Nibble) (kk : Byte) : State :=
  { s.setV x (rnd &&& kk) with draws := s.draws + 1 }.advance

/-- Cxkk (rule R194): the random byte is a free value (60_exceptions.md rule R285, log entry 2). -/
def execRndByte (x : Nibble) (kk : Byte) (s : State) : Out := .next (s.applyRnd (Config.rndByte s.draws) x kk)

end Sys2Proof.Machine
end

