-- ==== Sys2Proof/Machine/Display.lean ====
section
/-! DEFINITION. The display instructions 00E0 and Dxyn (41_display.md). -/

namespace Sys2Proof.Machine

/-- 00E0 (rule R121): clear the screen. -/
def execCls (s : State) : Out := .next { s with fb := Framebuffer.clear }.advance

/-- Dxyn (rule R122): draw the n-byte sprite at M[I] at column Vx and row Vy, VF := collision. All bytes are read
before any pixel changes. -/
def execDrw (x y n : Nibble) (s : State) : Out :=
  match s.spriteBytes n with
  | .error bad => .next (s.raise .memBounds (some (encode (.drw x y n))) bad)
  | .ok bytes =>
    let d := drawSprite s.fb (s.getV x) (s.getV y) bytes
    .next ({ s with fb := d.1 }.setFlag d.2).advance

end Sys2Proof.Machine
end

