-- ==== Sys2Proof/Machine/Flow.lean ====
section
/-! DEFINITION. Jumps, calls and returns: 00EE, 1nnn, 2nnn, Bnnn (42_flow.md). -/

namespace Sys2Proof.Machine

/-- 00EE (rule R141): pc <- Pop(); STACK_UNDERFLOW when the stack is empty. -/
def execRet (s : State) : Out :=
  match s.pop with
  | .error cause => .next (s.raise cause (some (encode .ret)) 0)
  | .ok (t, s') => .next (s'.setPc t)

/-- 1nnn (rule R142). -/
def execJp (nnn : Addr12) (s : State) : Out := .next (s.setPc (addrOperand nnn))

/-- 2nnn (rule R143): push the address of the next instruction, then jump; STACK_OVERFLOW when the stack is full. -/
def execCall (nnn : Addr12) (s : State) : Out :=
  match s.push (s.pc + 2) with
  | .error cause => .next (s.raise cause (some (encode (.call nnn))) 0)
  | .ok s' => .next (s'.setPc (addrOperand nnn))

/-- Bnnn (rule R144): pc <- nnn + V0, always register 0. -/
def execJpV0 (nnn : Addr12) (s : State) : Out :=
  .next (s.setPc (addrOperand nnn + byteOperand (s.getV 0)))

end Sys2Proof.Machine
end

