-- ==== Sys2Proof/Machine/IndexMemory.lean ====
section
/-! DEFINITION. The index register and memory instructions Annn, Fx1E, Fx29, Fx33, Fx55, Fx65 (45_index_memory.md). -/

namespace Sys2Proof.Machine

/-- Annn (rule R220). -/
def execLdI (nnn : Addr12) (s : State) : Out := .next (s.setI (addrOperand nnn)).advance

/-- Fx1E (rule R221): modulo 65536, no flag. -/
def execAddIVx (x : Nibble) (s : State) : Out := .next (s.setI (s.i + byteOperand (s.getV x))).advance

/-- Fx29 (rule R222): I := 5 Vx; FONT_DIGIT when Vx > 0xF. -/
def execLdFVx (x : Nibble) (s : State) : Out :=
  match fontAddr (s.getV x) with
  | .error cause => .next (s.raise cause (some (encode (.ldFVx x))) 0)
  | .ok a => .next (s.setI a).advance

/-- Fx33 (rule R223): the decimal digits of Vx to I, I+1, I+2. -/
def execLdBVx (x : Nibble) (s : State) : Out :=
  .next (s.storeThen (encode (.ldBVx x)) (bcdDigits (s.getV x)) State.advance)

/-- Fx55 (rule R224): V0..Vx to I..I+x, then IndexInc. -/
def execStRegs (x : Nibble) (s : State) : Out :=
  .next (s.storeThen (encode (.stRegs x)) (s.regsUpTo x) fun t => (t.indexInc s.i.toNat x).advance)

/-- Fx65 (rule R225): V0..Vx from I..I+x, then IndexInc. -/
def execLdRegs (x : Nibble) (s : State) : Out :=
  .next (s.loadThen (encode (.ldRegs x)) x fun t => (t.indexInc s.i.toNat x).advance)

end Sys2Proof.Machine
end

