-- ==== Sys2Proof/Machine/Skip.lean ====
section
/-! DEFINITION. The conditional skips 3xkk, 4xkk, 5xy0, 9xy0, Ex9E, ExA1 (43_skip.md). -/

namespace Sys2Proof.Machine

/-- 3xkk (rule R161). -/
def execSeByte (x : Nibble) (kk : Byte) (s : State) : Out := .next (s.skipIf (s.getV x == kk))

/-- 4xkk (rule R162). -/
def execSneByte (x : Nibble) (kk : Byte) (s : State) : Out := .next (s.skipIf (s.getV x != kk))

/-- 5xy0 (rule R163). -/
def execSeReg (x y : Nibble) (s : State) : Out := .next (s.skipIf (s.getV x == s.getV y))

/-- 9xy0 (rule R164). -/
def execSneReg (x y : Nibble) (s : State) : Out := .next (s.skipIf (s.getV x != s.getV y))

/-- Ex9E (rule R165): skip if the key whose code is in Vx is pressed. -/
def execSkp (x : Nibble) (s : State) : Out := .next (s.skipIf (s.isPressed (s.getV x).toNat))

/-- ExA1 (rule R166): skip if the key whose code is in Vx is not pressed. -/
def execSknp (x : Nibble) (s : State) : Out := .next (s.skipIf (!s.isPressed (s.getV x).toNat))

end Sys2Proof.Machine
end

