-- ==== Sys2Proof/Machine/TimerKey.lean ====
section
/-! DEFINITION. The timer and key-wait instructions Fx07, Fx0A, Fx15, Fx18 (46_timer_key.md). -/

namespace Sys2Proof.Machine

/-- Fx07 (rule R250). -/
def execLdVxDt (x : Nibble) (s : State) : Out := .next (s.setV x s.dt).advance

/-- Fx0A (rule R251): the least pressed key to Vx and advance; with no key pressed nothing changes, pc included, so the
next STEP polls again. -/
def execLdVxK (x : Nibble) (s : State) : Out :=
  match s.pressedKey with
  | some k => .next (s.setV x (BitVec.ofNat 8 k)).advance
  | none => .next s

/-- Fx15 (rule R252). -/
def execLdDtVx (x : Nibble) (s : State) : Out := .next { s with dt := s.getV x }.advance

/-- Fx18 (rule R253). -/
def execLdStVx (x : Nibble) (s : State) : Out := .next { s with st := s.getV x }.advance

end Sys2Proof.Machine
end

