-- ==== Sys2Proof/Machine/Cycle.lean ====
section
/-! DEFINITION. The instruction cycle: fetch, decode, execute as one atomic transition (30_encoding.md rule R95). -/

namespace Sys2Proof.Machine

/-- Instruction fetch, MemRead(pc, 2): big-endian, the byte at pc first (20_memory.md rules R63, R79). -/
def State.fetch (s : State) : Except Nat Word :=
  match memRead s.mem s.pc.toNat with
  | .error bad => .error bad
  | .ok hi =>
    match memRead s.mem (s.pc.toNat + 1) with
    | .error bad => .error bad
    | .ok lo => .ok (wordOfBytes hi lo)

/-- Decode and execute a fetched word with `run` as the execute stage; a word of no row raises UNKNOWN_OPCODE. -/
def runWord (run : Instr → State → Out) (w : Word) (s : State) : Out :=
  match decodeWord w with
  | .error _ => .next (s.raise .unknownOpcode (some w) 0)
  | .ok i => run i s

/-- One STEP with `run` as the execute stage (rule R95): no effect while FAULTED (60_exceptions.md rule R277); a fetch
out of bounds raises MEM_BOUNDS before decode. -/
def instructionCycle (run : Instr → State → Out) (s : State) : Out :=
  match s.fault with
  | some _ => .next s
  | none =>
    match s.fetch with
    | .error bad => .next (s.raise .memBounds none bad)
    | .ok w => runWord run w s

/-- The execute stage of STEP(rnd) with the random byte given: only Cxkk reads it (rule R96). -/
def execWith (rnd : Byte) (i : Instr) (s : State) : Out :=
  match i with
  | .rndByte x kk => .next (s.applyRnd rnd x kk)
  | _ => exec i s

/-- The address the next fetch reads for a word to be placed: pc, or the entry point where pc is out of fetch's reach. -/
def State.fetchPc (s : State) : Word := if s.pc.toNat ≤ 0xFFE then s.pc else 0x200

/-- The state with a word stored where the next STEP fetches, and nothing in the way of that fetch (log entry 5). -/
def State.placeWord (s : State) (w : Word) : State :=
  { s with
    pc := s.fetchPc
    fault := none
    mem := (s.mem.set s.fetchPc.toNat (highByte w)).set (s.fetchPc.toNat + 1) (lowByte w) }

end Sys2Proof.Machine
end

