-- ==== Sys2Proof/Machine/Step.lean ====
section
/-! DEFINITION. One STEP of the block (30_encoding.md rule R95). -/

namespace Sys2Proof.Machine

/-- STEP, with the random byte a free value (log entry 2). -/
def step (s : State) : Host.Outcome State Fault Refusal := instructionCycle exec s

/-- STEP(rnd), with the random byte the host supplies. -/
def stepWith (rnd : Byte) (s : State) : Out := instructionCycle (execWith rnd) s

/-- The state with the instruction whose bits are `w` (bits above `nbits` 0) stored where step fetches next. -/
def State.withFetchWord (s : State) (nbits w : Nat) : State := s.placeWord (BitVec.ofNat 16 (w % 2 ^ nbits))

end Sys2Proof.Machine
end

