-- ==== Sys2Proof/Machine/HostPort.lean ====
section
/-! DEFINITION. The host's operations on the block (10_state.md rule R40): RESET, LOAD, STEP(rnd), TIMER_TICK, SET_KEY,
READ_FB, READ_SOUND, READ_STATUS. Each is one atomic transition. -/

namespace Sys2Proof.Machine

/-- ROM_BASE (00_scope.md rule R6). -/
def romBase : Nat := 0x200

/-- What LOAD returns (20_memory.md rule R71). -/
inductive LoadResult where
  | ok
  | capacityError
  | faulted
  deriving DecidableEq, Repr

/-- The fields READ_STATUS returns (10_state.md rule R38); all are 0 while FAULTED is 0. -/
structure StatusRecord where
  faulted : Bool
  cause : BitVec 3
  faultPc : Word
  faultWordValid : Bool
  faultWord : Word
  faultAddr : FaultAddr
  deriving DecidableEq, Repr

/-- A host operation with its inputs (rule R40). -/
inductive HostOp where
  | reset
  | load (bytes : List Byte)
  | step (rnd : Byte)
  | timerTick
  | setKey (code : Nat) (pressed : Bool)
  | readFb
  | readSound
  | readStatus
  deriving DecidableEq, Repr

/-- What an operation returns to the host. A STEP returns its fault, if there is one (60_exceptions.md rule R274);
issued while FAULTED = 1 it returns the old fault record again (log entry 12, DESIGN CHOICE). -/
inductive HostReply where
  | done
  | loaded (r : LoadResult)
  | stepped (fault : Option FaultRecord)
  | frame (pixels : List Bool)
  | sound (st : Byte)
  | status (r : StatusRecord)
  deriving DecidableEq, Repr

/-- RESET (rule R42, 70_reset_and_hazards.md rule R320): every piece of state to its reset value. The configuration is
kept (rule R323), and so is the model's counter of free values, which is no state of the block (log entry 2). -/
def State.hostReset (s : State) : State := { State.resetWith s.cfg with draws := s.draws }

/-- LOAD (20_memory.md rule R71). -/
def State.load (s : State) (bytes : List Byte) : LoadResult × State :=
  if s.fault.isSome then (.faulted, s)
  else if romBase + bytes.length > 4096 then (.capacityError, s)
  else (.ok, { s with mem := s.mem.setList romBase bytes })

/-- A timer's tick: down by one, floored at 0 (60_exceptions.md rule R281). -/
def tickDown (t : Byte) : Byte := if t.toNat > 0 then t - 1 else t

/-- TIMER_TICK (rule R281). -/
def State.timerTick (s : State) : State :=
  if s.fault.isSome then s else { s with dt := tickDown s.dt, st := tickDown s.st }

/-- SET_KEY (rule R283): a code above 15 is ignored. -/
def State.setKey (s : State) (code : Nat) (pressed : Bool) : State :=
  if s.fault.isSome then s
  else if h : code < 16 then { s with keys := s.keys.set code pressed h }
  else s

/-- READ_FB (rule R284): the 2048 pixels in row-major order. -/
def State.readFb (s : State) : List Bool := (s.fb.toList.map Vector.toList).flatten

/-- The resolution query (rule R284): columns and rows. -/
def resolution : Nat × Nat := (64, 32)

/-- READ_SOUND (rules R40, R281): the sound timer. -/
def State.readSound (s : State) : Byte := s.st

/-- Whether the tone is on: exactly while ST > 0 (rule R281). -/
def State.soundOn (s : State) : Bool := decide (s.st.toNat > 0)

/-- READ_STATUS (rule R38). -/
def State.readStatus (s : State) : StatusRecord :=
  match s.fault with
  | none => ⟨false, 0, 0, false, 0, 0⟩
  | some r => ⟨true, r.cause.code, r.pc, r.word.isSome, r.word.getD 0, r.addr⟩

/-- STEP's reply to the host: the fault record of the state it leaves, or none. Rule R274 (60_exceptions.md) says so of a
STEP that faults. What a STEP issued while FAULTED = 1 returns the spec leaves open (rules R95 and R277 say only that it
has no effect); the old record again is the model's choice (log entry 12, DESIGN CHOICE). -/
def stepReply : Out → Host.Outcome (HostReply × State) Fault Refusal
  | .next t => .next (.stepped t.fault, t)
  | .fault r => .fault r
  | .refused r => .refused r

/-- One host operation (rule R40, log entry 8): its reply and the state after it. -/
def hostStep (op : HostOp) (s : State) : Host.Outcome (HostReply × State) Fault Refusal :=
  match op with
  | .reset => .next (.done, s.hostReset)
  | .load bytes => .next (.loaded (s.load bytes).1, (s.load bytes).2)
  | .step rnd => stepReply (stepWith rnd s)
  | .timerTick => .next (.done, s.timerTick)
  | .setKey code pressed => .next (.done, s.setKey code pressed)
  | .readFb => .next (.frame s.readFb, s)
  | .readSound => .next (.sound s.readSound, s)
  | .readStatus => .next (.status s.readStatus, s)

/-- A STEP and a TIMER_TICK requested together: the tick is performed first (10_state.md rule R41, log
entry 9). -/
def tickAndStep (rnd : Byte) (s : State) : Out := stepWith rnd s.timerTick

end Sys2Proof.Machine
end

