-- ==== Sys2Proof/Safety.lean ====
section
/-! DEFINITION. What counts as a safe state, a safe step and the end of a run, and the machine's invariants. -/

namespace Sys2Proof.Machine

/-- FAULTED = 0. -/
abbrev State.Running (s : State) : Prop := s.fault = none

/-- The word at pc, as fetch reads it. -/
def State.wordAtPc (s : State) : Word := wordOfBytes (s.mem.get s.pc.toNat) (s.mem.get (s.pc.toNat + 1))

/-- The conditions on the state under which an instruction's execute part raises no fault (70_reset_and_hazards.md rule
R329, 60_exceptions.md rule R272). -/
def State.RunsInstr (s : State) : Instr → Prop
  | .ret => 0 < s.sp.val
  | .call _ => s.sp.val < 16
  | .drw _ _ n => s.i.toNat < 4096 ∧ s.i.toNat + n.toNat ≤ 4096
  | .ldFVx x => (s.getV x).toNat ≤ 0xF
  | .ldBVx _ => s.i.toNat + 2 < 4096
  | .stRegs x => s.i.toNat + x.toNat < 4096
  | .ldRegs x => s.i.toNat + x.toNat < 4096
  | .cls | .jp _ | .seByte _ _ | .sneByte _ _ | .seReg _ _ | .ldByte _ _ | .addByte _ _ | .ldReg _ _ => True
  | .orReg _ _ | .andReg _ _ | .xorReg _ _ | .addReg _ _ | .subReg _ _ | .shrReg _ _ | .subnReg _ _ => True
  | .shlReg _ _ | .sneReg _ _ | .ldI _ | .jpV0 _ | .rndByte _ _ | .skp _ | .sknp _ => True
  | .ldVxDt _ | .ldVxK _ | .ldDtVx _ | .ldStVx _ | .addIVx _ => True

/-- The conditions a program keeps for its next STEP to raise no fault (rule R329). -/
def State.StepSafe (s : State) : Prop :=
  s.pc.toNat ≤ 0xFFE ∧ ∃ i, decodeWord s.wordAtPc = .ok i ∧ s.RunsInstr i

/-- The registers an instruction reads (10_state.md rule R23, column "reads"). -/
def readsReg (cfg : Config) : Instr → Nibble → Bool
  | .seByte x _, r | .sneByte x _, r | .addByte x _, r => r == x
  | .seReg x y, r | .sneReg x y, r | .orReg x y, r | .andReg x y, r | .xorReg x y, r => r == x || r == y
  | .addReg x y, r | .subReg x y, r | .subnReg x y, r | .drw x y _, r => r == x || r == y
  | .ldReg _ y, r => r == y
  | .shrReg x y, r | .shlReg x y, r => if cfg.quirkShiftVx then r == x else r == y
  | .jpV0 _, r => r == 0
  | .skp x, r | .sknp x, r | .ldDtVx x, r | .ldStVx x, r | .addIVx x, r | .ldFVx x, r | .ldBVx x, r => r == x
  | .stRegs x, r => decide (r.toNat ≤ x.toNat)
  | .cls, _ | .ret, _ | .jp _, _ | .call _, _ | .ldByte _ _, _ | .ldI _, _ | .rndByte _ _, _ => false
  | .ldVxDt _, _ | .ldVxK _, _ | .ldRegs _, _ => false

/-- The registers an instruction writes (10_state.md rule R23, column "writes"). -/
def writesReg (cfg : Config) : Instr → Nibble → Bool
  | .ldByte x _, r | .addByte x _, r | .ldReg x _, r | .rndByte x _, r | .ldVxDt x, r | .ldVxK x, r => r == x
  | .orReg x _, r | .andReg x _, r | .xorReg x _, r => r == x || (cfg.quirkVfReset && r == 0xF)
  | .addReg x _, r | .subReg x _, r | .shrReg x _, r | .subnReg x _, r | .shlReg x _, r => r == x || r == 0xF
  | .drw _ _ _, r => r == 0xF
  | .ldRegs x, r => decide (r.toNat ≤ x.toNat)
  | .cls, _ | .ret, _ | .jp _, _ | .call _, _ | .seByte _ _, _ | .sneByte _ _, _ | .seReg _ _, _ => false
  | .sneReg _ _, _ | .ldI _, _ | .jpV0 _, _ | .skp _, _ | .sknp _, _ | .ldDtVx _, _ | .ldStVx _, _ => false
  | .addIVx _, _ | .ldFVx _, _ | .ldBVx _, _ | .stRegs _, _ => false

/-- The pc after an instruction that raises no fault (10_state.md rule R26). -/
def State.nextPc (s : State) : Instr → Word
  | .ret => if h : 0 < s.sp.val then s.stack[s.sp.val - 1]'(by omega) else s.pc
  | .jp nnn => nnn.zeroExtend 16
  | .call nnn => nnn.zeroExtend 16
  | .jpV0 nnn => BitVec.ofNat 16 (nnn.toNat + (s.getV 0).toNat)
  | .seByte x kk => if s.getV x = kk then s.pc + 4 else s.pc + 2
  | .sneByte x kk => if s.getV x ≠ kk then s.pc + 4 else s.pc + 2
  | .seReg x y => if s.getV x = s.getV y then s.pc + 4 else s.pc + 2
  | .sneReg x y => if s.getV x ≠ s.getV y then s.pc + 4 else s.pc + 2
  | .skp x => if s.isPressed (s.getV x).toNat then s.pc + 4 else s.pc + 2
  | .sknp x => if s.isPressed (s.getV x).toNat then s.pc + 2 else s.pc + 4
  | .ldVxK _ => if ∃ k : Fin 16, s.keys[k.val] = true then s.pc + 2 else s.pc
  | .cls | .ldByte _ _ | .addByte _ _ | .ldReg _ _ | .orReg _ _ | .andReg _ _ | .xorReg _ _ => s.pc + 2
  | .addReg _ _ | .subReg _ _ | .shrReg _ _ | .subnReg _ _ | .shlReg _ _ | .ldI _ | .rndByte _ _ => s.pc + 2
  | .drw _ _ _ | .ldVxDt _ | .ldDtVx _ | .ldStVx _ | .addIVx _ | .ldFVx _ | .ldBVx _ => s.pc + 2
  | .stRegs _ | .ldRegs _ => s.pc + 2

/-- The cause an instruction's execute part can raise (60_exceptions.md rule R272); none for every other instruction. -/
def canRaise : Instr → Option Cause
  | .ret => some .stackUnderflow
  | .call _ => some .stackOverflow
  | .drw _ _ _ | .ldBVx _ | .stRegs _ | .ldRegs _ => some .memBounds
  | .ldFVx _ => some .fontDigit
  | .cls | .jp _ | .seByte _ _ | .sneByte _ _ | .seReg _ _ | .ldByte _ _ | .addByte _ _ | .ldReg _ _ => none
  | .orReg _ _ | .andReg _ _ | .xorReg _ _ | .addReg _ _ | .subReg _ _ | .shrReg _ _ | .subnReg _ _ => none
  | .shlReg _ _ | .sneReg _ _ | .ldI _ | .jpV0 _ | .rndByte _ _ | .skp _ | .sknp _ => none
  | .ldVxDt _ | .ldVxK _ | .ldDtVx _ | .ldStVx _ | .addIVx _ => none

/-- An idle state: FAULTED = 0, PC ≤ 0x0FFE and a 1nnn at PC that jumps to itself (rule R334). -/
def State.Idle (s : State) : Prop :=
  s.Running ∧ s.pc.toNat ≤ 0xFFE ∧ s.wordAtPc = 0x1000 ||| s.pc

/-- The form of a fault record (10_state.md rule R38, 60_exceptions.md rules R271, R274): an address only for
MEM_BOUNDS, and then one of 4096 or more that an access can form; the word missing exactly when the fetch itself was out
of bounds; REG_INDEX never. -/
structure FaultRecord.WellFormed (r : FaultRecord) : Prop where
  addrZero : r.cause ≠ .memBounds → r.addr = 0
  addrRange : r.cause = .memBounds → 4096 ≤ r.addr.toNat ∧ r.addr.toNat ≤ 0x1000E
  wordMissing : r.word = none ↔ 0xFFF ≤ r.pc.toNat
  fetchFault : r.word = none → r.cause = .memBounds
  notRegIndex : r.cause ≠ .regIndex

/-- The machine's invariant: memory in canonical form, every live stack entry a return address of at most 0x1000, PC at
most 0x10FE (rules R29, R140), and the fault record in its form. -/
structure State.Inv (s : State) : Prop where
  memory : s.mem.wf = true
  returns : ∀ k : Fin 16, k.val < s.sp.val → (s.stack[k.val]).toNat ≤ 0x1000
  pcBound : s.pc.toNat ≤ 0x10FE
  record : ∀ r, s.fault = some r → r.WellFormed

end Sys2Proof.Machine
end

