-- ==== Sys2Proof/Certificates/Slice0/Obligations.lean ====
section
/-! DEFINITION. The statements for the provers, from the spec's numbered rules. -/

open Sys2Proof Sys2Proof.Machine

/-- One word of each family, written out from the opcode map (rule R86). -/
def Obligations.DecodeSampleWords : Prop :=
  decodeWord 0x00E0 = .ok .cls ∧ decodeWord 0x1234 = .ok (.jp 0x234) ∧
  decodeWord 0x3A42 = .ok (.seByte 0xA 0x42) ∧ decodeWord 0x8124 = .ok (.addReg 1 2) ∧
  decodeWord 0xA2F0 = .ok (.ldI 0x2F0) ∧ decodeWord 0xD125 = .ok (.drw 1 2 5) ∧
  decodeWord 0xE59E = .ok (.skp 5) ∧ decodeWord 0xF265 = .ok (.ldRegs 2) ∧
  decodeWord 0x01E0 = .error (.unknownOpcode 0x01E0)

/-- Round trip over all 34 forms: no bit of an encoding is dropped (rules R81, R86). -/
def Obligations.DecodeOfEncode : Prop :=
  ∀ i : Instr, i.wellFormed = true ∧ decodeWord (encode i) = .ok i ∧
    ∀ rest, decode (encodeBytes i ++ rest) = .ok (i, rest)

/-- The other direction of the round trip: two different words never decode to one instruction. -/
def Obligations.EncodeOfDecode : Prop :=
  ∀ (w : Word) (i : Instr), decodeWord w = .ok i → encode i = w

/-- Rule R94 over the opcode map of rule R86. -/
def Obligations.DecodeSelectsOpcodeMapRow : Prop :=
  ∀ w : Word,
    (∀ p ∈ opcodeMap, p.accepts w = true ↔ ∃ i, decodeWord w = .ok i ∧ i.pattern = p) ∧
    ((∀ p ∈ opcodeMap, p.accepts w = false) ↔ decodeWord w = .error (.unknownOpcode w))

/-- Rules R87 to R90. -/
def Obligations.IllegalWordsByFamily : Prop :=
  ∀ w : Word,
    let illegal : Prop :=
      (fieldOp w = 0x0 ∧ w ≠ 0x00E0 ∧ w ≠ 0x00EE) ∨
      ((fieldOp w = 0x5 ∨ fieldOp w = 0x9) ∧ fieldN w ≠ 0) ∨
      (fieldOp w = 0x8 ∧ fieldN w ∈ [0x8, 0x9, 0xA, 0xB, 0xC, 0xD, 0xF]) ∨
      (fieldOp w = 0xE ∧ fieldKK w ∉ [0x9E, 0xA1]) ∨
      (fieldOp w = 0xF ∧ fieldKK w ∉ [0x07, 0x0A, 0x15, 0x18, 0x1E, 0x29, 0x33, 0x55, 0x65])
    (illegal → decodeWord w = .error (.unknownOpcode w)) ∧ (¬ illegal → ∃ i, decodeWord w = .ok i)

/-- Rule R93. -/
def Obligations.OpcodeMapUnambiguous : Prop :=
  opcodeMap.Nodup ∧
  ∀ (w : Word) (p q : Pattern), p ∈ opcodeMap → q ∈ opcodeMap → p.accepts w = true → q.accepts w = true → p = q

/-- The per-instruction statements reach a run through this one (rule R95). -/
def Obligations.StepRunsDecodedInstr : Prop :=
  ∀ (s : State) (i : Instr), s.fault = none → s.pc.toNat ≤ 0xFFE → i.wellFormed = true →
    decodeWord (wordOfBytes (s.mem.get s.pc.toNat) (s.mem.get (s.pc.toNat + 1))) = .ok i →
    step s = exec i s ∧ ∀ rnd, stepWith rnd s = execWith rnd i s

/-- The pseudocode of rule R95, with fetch and fault entry written out. -/
def Obligations.StepIsInstructionCycle : Prop :=
  ∀ (rnd : Byte) (s : State),
    stepWith rnd s =
      if s.fault ≠ none then .next s
      else if 0xFFF ≤ s.pc.toNat then
        .next { s with fault := some ⟨.memBounds, s.pc, none, BitVec.ofNat 17 (if 4096 ≤ s.pc.toNat then s.pc.toNat else 4096)⟩ }
      else
        match decodeWord (wordOfBytes (s.mem.get s.pc.toNat) (s.mem.get (s.pc.toNat + 1))) with
        | .error _ =>
          .next { s with fault := some ⟨.unknownOpcode, s.pc,
            some (wordOfBytes (s.mem.get s.pc.toNat) (s.mem.get (s.pc.toNat + 1))), 0⟩ }
        | .ok i => execWith rnd i s

/-- Every fault of the spec is taken as a next state with its record (rule R274), so a step never ends otherwise (log entry 6). -/
def Obligations.StepAlwaysAnswersNext : Prop :=
  ∀ s : State, (∃ t, step s = .next t) ∧ (∀ rnd, ∃ t, stepWith rnd s = .next t) ∧ ∀ op, ∃ r, hostStep op s = .next r

/-- Rule R96. The model's own step draws the byte (log entry 2, DESIGN CHOICE); after a faulting Fx33, Fx55 or Fx65 the equalities compare state that rule R275 leaves open (log entry 3, DESIGN CHOICE). -/
def Obligations.RndReadByCxkkOnly : Prop :=
  (∀ (i : Instr) (r1 r2 : Byte) (s : State), (∀ x kk, i ≠ .rndByte x kk) → execWith r1 i s = execWith r2 i s) ∧
  ∀ (r1 r2 : Byte) (s : State),
    (s.fault = none → s.pc.toNat ≤ 0xFFE → ∀ x kk, decodeWord s.wordAtPc ≠ .ok (.rndByte x kk)) →
    stepWith r1 s = stepWith r2 s ∧ stepWith r1 s = step s

/-- Fault entry (rule R274): the word in the record is the fetched one, though the execute stage takes it from the instruction (log entry 7). -/
def Obligations.FaultEntryRecord : Prop :=
  ∀ (rnd : Byte) (s t : State) (r : FaultRecord), s.fault = none → stepWith rnd s = .next t → t.fault = some r →
    r.pc = s.pc ∧
    r.word = (if s.pc.toNat ≤ 0xFFE then some s.wordAtPc else none) ∧
    (r.cause = .memBounds → 4096 ≤ r.addr.toNat ∧ r.addr.toNat ≤ 0x1000E) ∧
    (r.cause ≠ .memBounds → r.addr = 0) ∧ r.cause ≠ .regIndex

/-- The table of rule R272, written as `canRaise` in Safety.lean. -/
def Obligations.CauseByOperation : Prop :=
  (∀ (rnd : Byte) (i : Instr) (s t : State) (r : FaultRecord),
    s.fault = none → execWith rnd i s = .next t → t.fault = some r → canRaise i = some r.cause) ∧
  (∀ (rnd : Byte) (s : State), s.fault = none → 0xFFF ≤ s.pc.toNat →
    ∃ t r, stepWith rnd s = .next t ∧ t.fault = some r ∧ r.cause = .memBounds) ∧
  (∀ (rnd : Byte) (s : State) (e : DecodeError), s.fault = none → s.pc.toNat ≤ 0xFFE →
    decodeWord s.wordAtPc = .error e → ∃ t r, stepWith rnd s = .next t ∧ t.fault = some r ∧ r.cause = .unknownOpcode) ∧
  ∀ (op : HostOp) (s t : State) (reply : HostReply), (∀ rnd, op ≠ .step rnd) → s.fault = none →
    hostStep op s = .next (reply, t) → t.fault = none

/-- State.StepSafe gathers the conditions of rule R329; that nothing else faults is rule R272, and Dxy0 with I out of bounds is rule R122 (D9). -/
def Obligations.StepFaultsExactlyOnBrokenCondition : Prop :=
  ∀ s : State, s.fault = none →
    (s.StepSafe → ∃ t, step s = .next t ∧ t.fault = none) ∧
    (¬ s.StepSafe → ∃ t r, step s = .next t ∧ t.fault = some r)

/-- Rule R277. What the STEP replies is StepReplyShowsFault. -/
def Obligations.FaultStateIsTerminal : Prop :=
  ∀ (s : State) (f : FaultRecord), s.fault = some f →
    step s = .next s ∧
    (∀ rnd, ∃ reply, hostStep (.step rnd) s = .next (reply, s)) ∧
    (∀ bytes, hostStep (.load bytes) s = .next (.loaded .faulted, s)) ∧
    hostStep .timerTick s = .next (.done, s) ∧
    (∀ code pressed, hostStep (.setKey code pressed) s = .next (.done, s)) ∧
    (∃ px, hostStep .readFb s = .next (.frame px, s)) ∧
    hostStep .readSound s = .next (.sound s.st, s) ∧
    (∃ st, hostStep .readStatus s = .next (.status st, s) ∧ st.faulted = true) ∧
    ∃ t, hostStep .reset s = .next (.done, t) ∧ t.fault = none

/-- The bounds on PC are those of rules R29 and R140; the canonical form is the model's own (log entry 4). After a faulting Fx33, Fx55 or Fx65 the stack and PC are as log entry 3 (DESIGN CHOICE) keeps them. -/
def Obligations.StepKeepsInvariant : Prop :=
  ∀ s t : State, s.Inv → step s = .next t → t.Inv

/-- State.reset takes the reference configuration (log entry 1, DESIGN CHOICE). -/
def Obligations.ResetMeetsInvariant : Prop :=
  State.reset.Inv

/-- So the invariant holds under every schedule of the host (rule R289); after a fault, by log entry 3 (DESIGN CHOICE). -/
def Obligations.HostOperationsKeepInvariant : Prop :=
  ∀ (op : HostOp) (s t : State) (reply : HostReply), s.Inv → hostStep op s = .next (reply, t) → t.Inv

/-- Rule R42, for every FONTSET. -/
def Obligations.ResetState : Prop :=
  ∀ s t : State, (hostStep .reset s = .next (.done, t) ∨ t = State.reset) →
    t.pc = 0x200 ∧ t.sp = 0 ∧ (∀ k : Fin 16, t.stack[k.val] = 0) ∧ (∀ r, t.getV r = 0) ∧ t.i = 0 ∧
    t.dt = 0 ∧ t.st = 0 ∧ (∀ k : Fin 16, t.keys[k.val] = false) ∧ (∀ r c, t.fb.pixel r c = false) ∧
    (∀ a : Fin 80, t.mem.get a.val = t.cfg.fontset[a.val]) ∧
    (∀ a, 80 ≤ a → a < 4096 → t.mem.get a = 0) ∧ t.fault = none

/-- Rule R323; that the state carries the configuration is the model's choice (log entry 1). -/
def Obligations.ConfigurationNeverChanges : Prop :=
  ∀ (op : HostOp) (s t : State) (reply : HostReply), hostStep op s = .next (reply, t) → t.cfg = s.cfg

/-- The boot sequence of rule R321. -/
def Obligations.BootRunsFirstRomWord : Prop :=
  ∀ (s : State) (b0 b1 : Byte) (rest : List Byte) (rnd : Byte), rest.length ≤ 3582 →
    (s.hostReset.load (b0 :: b1 :: rest)).1 = .ok ∧
    (s.hostReset.load (b0 :: b1 :: rest)).2.pc = 0x200 ∧
    stepWith rnd (s.hostReset.load (b0 :: b1 :: rest)).2 =
      runWord (execWith rnd) (wordOfBytes b0 b1) (s.hostReset.load (b0 :: b1 :: rest)).2

/-- Rules R61 and R62. -/
def Obligations.MemoryReadAfterWrite : Prop :=
  (∀ (m : Memory) (a : Nat) (v : Byte), a < 4096 →
    ∃ m', memWrite m a v = .ok m' ∧ memRead m' a = .ok v ∧ ∀ b, b ≠ a → memRead m' b = memRead m b) ∧
  ∀ (m : Memory) (a : Nat) (v : Byte), 4096 ≤ a → memRead m a = .error a ∧ memWrite m a v = .error a

/-- Rule R121. -/
def Obligations.ClsClearsScreen : Prop :=
  ∀ s : State, ∃ fb, exec .cls s = .next { s with fb := fb, pc := s.pc + 2 } ∧ ∀ r c, fb.pixel r c = false

/-- The loop of rule R120 against its pixel-by-pixel reading: each screen position is touched at most once. -/
def Obligations.SpritePixelsAndCollision : Prop :=
  ∀ (fb : Framebuffer) (cx cy : Byte) (bytes : List Byte), bytes.length ≤ 15 →
    let bit : Fin 32 → Fin 64 → Bool := fun r c =>
      let row := (r.val + 32 - cy.toNat % 32) % 32
      let col := (c.val + 64 - cx.toNat % 64) % 64
      decide (row < bytes.length) && decide (col < 8) && (bytes.getD row 0).getLsbD (7 - col)
    (∀ r c, (drawSprite fb cx cy bytes).1.pixel r c = (fb.pixel r c ^^ bit r c)) ∧
    ((drawSprite fb cx cy bytes).2 = true ↔ ∃ r c, fb.pixel r c = true ∧ bit r c = true)

/-- A corner case of rule R122 (log entry 10, DEDUCED). Its second half is stated for a clear screen, as the source says it: where the pixels were lit, the second draw turns them on again and does not collide. -/
def Obligations.DrawTwiceRestores : Prop :=
  ∀ (fb : Framebuffer) (cx cy : Byte) (bytes : List Byte), bytes.length ≤ 15 →
    (drawSprite (drawSprite fb cx cy bytes).1 cx cy bytes).1 = fb ∧
    ((∀ r c, fb.pixel r c = false) →
      (drawSprite fb cx cy bytes).2 = false ∧
      ((drawSprite (drawSprite fb cx cy bytes).1 cx cy bytes).2 = true ↔ ∃ b ∈ bytes, b ≠ 0))

/-- Rule R122; the pixels are SpritePixelsAndCollision. -/
def Obligations.DrwDrawsAndSetsFlag : Prop :=
  ∀ (x y n : Nibble) (s : State),
    (s.i.toNat < 4096 ∧ s.i.toNat + n.toNat ≤ 4096 →
      ∃ t, exec (.drw x y n) s = .next t ∧ t = { s with v := t.v, fb := t.fb, pc := s.pc + 2 } ∧
        t.fb = (drawSprite s.fb (s.getV x) (s.getV y) ((List.range n.toNat).map fun j => s.mem.get (s.i.toNat + j))).1 ∧
        t.getV 0xF =
          (if (drawSprite s.fb (s.getV x) (s.getV y) ((List.range n.toNat).map fun j => s.mem.get (s.i.toNat + j))).2
            then 1 else 0) ∧
        ∀ r, r ≠ 0xF → t.getV r = s.getV r) ∧
    (¬ (s.i.toNat < 4096 ∧ s.i.toNat + n.toNat ≤ 4096) →
      exec (.drw x y n) s = .next { s with fault := some ⟨.memBounds, s.pc, some (encode (.drw x y n)),
        BitVec.ofNat 17 (max s.i.toNat 4096)⟩ })

/-- Rule R141. -/
def Obligations.RetPopsReturnAddress : Prop :=
  ∀ s : State,
    (∀ h : 0 < s.sp.val, exec .ret s = .next { s with
      pc := s.stack[s.sp.val - 1]'(by omega), sp := ⟨s.sp.val - 1, by omega⟩ }) ∧
    (s.sp.val = 0 → exec .ret s = .next { s with fault := some ⟨.stackUnderflow, s.pc, some 0x00EE, 0⟩ })

/-- Rule R143. -/
def Obligations.CallPushesReturnAddress : Prop :=
  ∀ (nnn : Addr12) (s : State),
    (∀ h : s.sp.val < 16, exec (.call nnn) s = .next { s with
      stack := s.stack.set s.sp.val (s.pc + 2) h, sp := ⟨s.sp.val + 1, by omega⟩, pc := BitVec.ofNat 16 nnn.toNat }) ∧
    (s.sp.val = 16 → exec (.call nnn) s = .next { s with
      fault := some ⟨.stackOverflow, s.pc, some (encode (.call nnn)), 0⟩ })

/-- Rules R142 and R144. -/
def Obligations.JumpsSetPc : Prop :=
  ∀ (nnn : Addr12) (s : State),
    (∃ t, exec (.jp nnn) s = .next t ∧ t = { s with pc := t.pc } ∧ t.pc.toNat = nnn.toNat) ∧
    ∃ t, exec (.jpV0 nnn) s = .next t ∧ t = { s with pc := t.pc } ∧ t.pc.toNat = nnn.toNat + (s.getV 0).toNat

/-- The stack is last in, first out (rule R30). -/
def Obligations.ReturnUndoesCall : Prop :=
  ∀ (nnn : Addr12) (s : State), s.sp.val < 16 →
    ∃ t u, exec (.call nnn) s = .next t ∧ exec .ret t = .next u ∧
      u = { s with stack := u.stack, pc := s.pc + 2 } ∧
      ∀ k : Fin 16, k.val < s.sp.val → u.stack[k.val] = s.stack[k.val]

/-- A sentence of rule R31, over every step; of a state after a fault only the record is compared (rule R275). -/
def Obligations.DeadStackEntriesUnobservable : Prop :=
  ∀ s s' : State, s' = { s with stack := s'.stack } →
    (∀ k : Fin 16, k.val < s.sp.val → s'.stack[k.val] = s.stack[k.val]) →
    ∃ t t', step s = .next t ∧ step s' = .next t' ∧ t'.fault = t.fault ∧
      (t.fault = none → t' = { t with stack := t'.stack } ∧
        ∀ k : Fin 16, k.val < t.sp.val → t'.stack[k.val] = t.stack[k.val])

/-- Rules R161 to R164. -/
def Obligations.ByteAndRegisterSkips : Prop :=
  ∀ (x y : Nibble) (kk : Byte) (s : State),
    exec (.seByte x kk) s = .next { s with pc := if s.getV x = kk then s.pc + 4 else s.pc + 2 } ∧
    exec (.sneByte x kk) s = .next { s with pc := if s.getV x ≠ kk then s.pc + 4 else s.pc + 2 } ∧
    exec (.seReg x y) s = .next { s with pc := if s.getV x = s.getV y then s.pc + 4 else s.pc + 2 } ∧
    exec (.sneReg x y) s = .next { s with pc := if s.getV x ≠ s.getV y then s.pc + 4 else s.pc + 2 }

/-- Rules R165 and R166. -/
def Obligations.KeySkips : Prop :=
  ∀ (x : Nibble) (s : State),
    (∀ h : (s.getV x).toNat < 16,
      exec (.skp x) s = .next { s with pc := if s.keys[(s.getV x).toNat] = true then s.pc + 4 else s.pc + 2 } ∧
      exec (.sknp x) s = .next { s with pc := if s.keys[(s.getV x).toNat] = true then s.pc + 2 else s.pc + 4 }) ∧
    (16 ≤ (s.getV x).toNat →
      exec (.skp x) s = .next { s with pc := s.pc + 2 } ∧ exec (.sknp x) s = .next { s with pc := s.pc + 4 })

/-- Rules R183 and R185. -/
def Obligations.LoadImmediateAndCopy : Prop :=
  ∀ (x y : Nibble) (kk : Byte) (s : State),
    (∃ t, exec (.ldByte x kk) s = .next t ∧ t = { s with v := t.v, pc := s.pc + 2 } ∧
      ∀ r, t.getV r = if r = x then kk else s.getV r) ∧
    ∃ t, exec (.ldReg x y) s = .next t ∧ t = { s with v := t.v, pc := s.pc + 2 } ∧
      ∀ r, t.getV r = if r = x then s.getV y else s.getV r

/-- Rule R184. -/
def Obligations.AddImmediateWritesNoFlag : Prop :=
  ∀ (x : Nibble) (kk : Byte) (s : State),
    ∃ t, exec (.addByte x kk) s = .next t ∧ t = { s with v := t.v, pc := s.pc + 2 } ∧
      (t.getV x).toNat = ((s.getV x).toNat + kk.toNat) % 256 ∧ ∀ r, r ≠ x → t.getV r = s.getV r

/-- Rules R186 to R188, in every configuration. -/
def Obligations.BitwiseOpsAndVfReset : Prop :=
  ∀ (x y : Nibble) (s : State),
    let out (i : Instr) (v : Byte) : Prop :=
      ∃ t, exec i s = .next t ∧ t = { s with v := t.v, pc := s.pc + 2 } ∧
        ∀ r, t.getV r = if s.cfg.quirkVfReset = true ∧ r = 0xF then 0 else if r = x then v else s.getV r
    out (.orReg x y) (s.getV x ||| s.getV y) ∧ out (.andReg x y) (s.getV x &&& s.getV y) ∧
      out (.xorReg x y) (s.getV x ^^^ s.getV y)

/-- Rule R189. -/
def Obligations.AddRegistersSetsCarry : Prop :=
  ∀ (x y : Nibble) (s : State),
    ∃ t, exec (.addReg x y) s = .next t ∧ t = { s with v := t.v, pc := s.pc + 2 } ∧
      t.getV 0xF = (if (s.getV x).toNat + (s.getV y).toNat > 255 then 1 else 0) ∧
      (x ≠ 0xF → (t.getV x).toNat = ((s.getV x).toNat + (s.getV y).toNat) % 256) ∧
      ∀ r, r ≠ x → r ≠ 0xF → t.getV r = s.getV r

/-- Rules R190 and R192. -/
def Obligations.SubtractSetsNotBorrow : Prop :=
  ∀ (x y : Nibble) (s : State),
    let out (i : Instr) (a b : Byte) : Prop :=
      ∃ t, exec i s = .next t ∧ t = { s with v := t.v, pc := s.pc + 2 } ∧
        (t.getV x).toNat = (a.toNat + 256 - b.toNat) % 256 ∧
        (x ≠ 0xF → t.getV 0xF = if a.toNat ≥ b.toNat then 1 else 0) ∧
        ∀ r, r ≠ x → r ≠ 0xF → t.getV r = s.getV r
    out (.subReg x y) (s.getV x) (s.getV y) ∧ out (.subnReg x y) (s.getV y) (s.getV x)

/-- Rules R191 and R193, in every configuration. -/
def Obligations.ShiftsSetShiftedOutBit : Prop :=
  ∀ (x y : Nibble) (s : State),
    let src : Nat := (if s.cfg.quirkShiftVx = true then s.getV x else s.getV y).toNat
    let out (i : Instr) (result flag : Nat) : Prop :=
      ∃ t, exec i s = .next t ∧ t = { s with v := t.v, pc := s.pc + 2 } ∧
        (t.getV x).toNat = result ∧ (x ≠ 0xF → (t.getV 0xF).toNat = flag) ∧
        ∀ r, r ≠ x → r ≠ 0xF → t.getV r = s.getV r
    out (.shrReg x y) (src / 2) (src % 2) ∧ out (.shlReg x y) (src * 2 % 256) (src / 128)

/-- Rule R194. The free value and the draw counter are the model's own (log entry 2, DESIGN CHOICE): the statement holds whatever the value of Config.rndByte is. -/
def Obligations.RandomByteMasked : Prop :=
  ∀ (x : Nibble) (kk : Byte) (s : State),
    (∀ rnd : Byte, ∃ t, execWith rnd (.rndByte x kk) s = .next t ∧
      t = { s with v := t.v, pc := s.pc + 2, draws := s.draws + 1 } ∧
      ∀ r, t.getV r = if r = x then rnd &&& kk else s.getV r) ∧
    ∃ t, exec (.rndByte x kk) s = .next t ∧ t = { s with v := t.v, pc := s.pc + 2, draws := s.draws + 1 } ∧
      ∀ r, t.getV r = if r = x then Config.rndByte s.draws &&& kk else s.getV r

/-- Rules R220 and R221. -/
def Obligations.IndexRegisterWrites : Prop :=
  ∀ (nnn : Addr12) (x : Nibble) (s : State),
    (∃ t, exec (.ldI nnn) s = .next t ∧ t = { s with i := t.i, pc := s.pc + 2 } ∧ t.i.toNat = nnn.toNat) ∧
    ∃ t, exec (.addIVx x) s = .next t ∧ t = { s with i := t.i, pc := s.pc + 2 } ∧
      t.i.toNat = (s.i.toNat + (s.getV x).toNat) % 65536

/-- Rules R222 and R69. -/
def Obligations.FontPointerOrFault : Prop :=
  ∀ (x : Nibble) (s : State),
    ((s.getV x).toNat ≤ 15 → ∃ t, exec (.ldFVx x) s = .next t ∧ t = { s with i := t.i, pc := s.pc + 2 } ∧
      t.i.toNat = 5 * (s.getV x).toNat) ∧
    (15 < (s.getV x).toNat → exec (.ldFVx x) s = .next { s with
      fault := some ⟨.fontDigit, s.pc, some (encode (.ldFVx x)), 0⟩ })

/-- Rule R223; after the fault only the record is read (rule R275). -/
def Obligations.BcdStoresDigits : Prop :=
  ∀ (x : Nibble) (s : State),
    (s.i.toNat + 2 < 4096 → ∃ t, exec (.ldBVx x) s = .next t ∧ t = { s with mem := t.mem, pc := s.pc + 2 } ∧
      (t.mem.get s.i.toNat).toNat = (s.getV x).toNat / 100 ∧
      (t.mem.get (s.i.toNat + 1)).toNat = (s.getV x).toNat / 10 % 10 ∧
      (t.mem.get (s.i.toNat + 2)).toNat = (s.getV x).toNat % 10 ∧
      ∀ a, (a < s.i.toNat ∨ s.i.toNat + 2 < a) → t.mem.get a = s.mem.get a) ∧
    (4096 ≤ s.i.toNat + 2 → ∃ t, exec (.ldBVx x) s = .next t ∧
      t.fault = some ⟨.memBounds, s.pc, some (encode (.ldBVx x)), BitVec.ofNat 17 (max s.i.toNat 4096)⟩)

/-- Rules R224 and R226; after the fault only the record is read (rule R275). -/
def Obligations.StoreRegistersThroughI : Prop :=
  ∀ (x : Nibble) (s : State),
    (s.i.toNat + x.toNat < 4096 → ∃ t, exec (.stRegs x) s = .next t ∧
      t = { s with mem := t.mem, i := t.i, pc := s.pc + 2 } ∧
      (∀ j : Nibble, j.toNat ≤ x.toNat → t.mem.get (s.i.toNat + j.toNat) = s.getV j) ∧
      (∀ a, (a < s.i.toNat ∨ s.i.toNat + x.toNat < a) → t.mem.get a = s.mem.get a) ∧
      t.i.toNat = (match s.cfg.quirkIndexInc with
        | .none => s.i.toNat
        | .xPlus1 => (s.i.toNat + x.toNat + 1) % 65536
        | .x => (s.i.toNat + x.toNat) % 65536)) ∧
    (4096 ≤ s.i.toNat + x.toNat → ∃ t, exec (.stRegs x) s = .next t ∧
      t.fault = some ⟨.memBounds, s.pc, some (encode (.stRegs x)), BitVec.ofNat 17 (max s.i.toNat 4096)⟩)

/-- Rules R225 and R226; after the fault only the record is read (rule R275). -/
def Obligations.LoadRegistersThroughI : Prop :=
  ∀ (x : Nibble) (s : State),
    (s.i.toNat + x.toNat < 4096 → ∃ t, exec (.ldRegs x) s = .next t ∧
      t = { s with v := t.v, i := t.i, pc := s.pc + 2 } ∧
      (∀ j : Nibble, t.getV j = if j.toNat ≤ x.toNat then s.mem.get (s.i.toNat + j.toNat) else s.getV j) ∧
      t.i.toNat = (match s.cfg.quirkIndexInc with
        | .none => s.i.toNat
        | .xPlus1 => (s.i.toNat + x.toNat + 1) % 65536
        | .x => (s.i.toNat + x.toNat) % 65536)) ∧
    (4096 ≤ s.i.toNat + x.toNat → ∃ t, exec (.ldRegs x) s = .next t ∧
      t.fault = some ⟨.memBounds, s.pc, some (encode (.ldRegs x)), BitVec.ofNat 17 (max s.i.toNat 4096)⟩)

/-- A store and the load of the same bytes (rule R73). -/
def Obligations.LoadAfterStoreRestoresRegisters : Prop :=
  ∀ (x : Nibble) (s : State) (w : Vector Byte 16), s.i.toNat + x.toNat < 4096 →
    ∃ t u, exec (.stRegs x) s = .next t ∧ exec (.ldRegs x) { t with v := w, i := s.i } = .next u ∧
      ∀ j : Nibble, u.getV j = if j.toNat ≤ x.toNat then s.getV j else { t with v := w }.getV j

/-- Rules R250, R252 and R253. -/
def Obligations.TimerRegisterMoves : Prop :=
  ∀ (x : Nibble) (s : State),
    (∃ t, exec (.ldVxDt x) s = .next t ∧ t = { s with v := t.v, pc := s.pc + 2 } ∧
      ∀ r, t.getV r = if r = x then s.dt else s.getV r) ∧
    exec (.ldDtVx x) s = .next { s with dt := s.getV x, pc := s.pc + 2 } ∧
    exec (.ldStVx x) s = .next { s with st := s.getV x, pc := s.pc + 2 }

/-- Rule R251. -/
def Obligations.KeyWaitPollsLowestKey : Prop :=
  ∀ (x : Nibble) (s : State),
    (∀ k : Fin 16, s.keys[k.val] = true → (∀ j : Fin 16, j.val < k.val → s.keys[j.val] = false) →
      ∃ t, exec (.ldVxK x) s = .next t ∧ t = { s with v := t.v, pc := s.pc + 2 } ∧
        ∀ r, t.getV r = if r = x then BitVec.ofNat 8 k.val else s.getV r) ∧
    ((∀ k : Fin 16, s.keys[k.val] = false) → exec (.ldVxK x) s = .next s)

/-- Rule R71. -/
def Obligations.LoadCopiesRom : Prop :=
  ∀ (s : State) (bytes : List Byte),
    (s.fault ≠ none → s.load bytes = (.faulted, s)) ∧
    (s.fault = none → 4096 < 0x200 + bytes.length → s.load bytes = (.capacityError, s)) ∧
    (s.fault = none → 0x200 + bytes.length ≤ 4096 →
      ∃ m, s.load bytes = (.ok, { s with mem := m }) ∧
        (∀ j (h : j < bytes.length), m.get (0x200 + j) = bytes[j]) ∧
        ∀ a, (a < 0x200 ∨ 0x200 + bytes.length ≤ a) → m.get a = s.mem.get a)

/-- Rule R281, for any number of ticks. -/
def Obligations.TimerTickFloorsAtZero : Prop :=
  (∀ (k : Nat) (s : State), s.fault = none →
    ∃ t, (State.timerTick^[k]) s = t ∧ t = { s with dt := t.dt, st := t.st } ∧
      t.dt.toNat = s.dt.toNat - k ∧ t.st.toNat = s.st.toNat - k) ∧
  (∀ s : State, s.fault ≠ none → s.timerTick = s) ∧
  ∀ s : State, hostStep .readSound s = .next (.sound s.st, s) ∧ (s.soundOn = true ↔ s.st ≠ 0)

/-- A fact rule R328 says a program may rely on; the DT left by a STEP that raises a fault is open (rule R275). -/
def Obligations.DelayTimerNeverRises : Prop :=
  ∀ (op : HostOp) (s t : State) (reply : HostReply), hostStep op s = .next (reply, t) →
    (t.fault = none ∨ s.fault ≠ none) →
    t.dt.toNat ≤ s.dt.toNat ∨ ∃ rnd x, op = .step rnd ∧ decodeWord s.wordAtPc = .ok (.ldDtVx x)

/-- Rule R283. -/
def Obligations.SetKeyWritesLatch : Prop :=
  (∀ (s : State) (code : Nat) (pressed : Bool), s.fault = none →
    s.setKey code pressed = { s with keys := (s.setKey code pressed).keys } ∧
    ∀ k : Fin 16, (s.setKey code pressed).keys[k.val] = if code = k.val then pressed else s.keys[k.val]) ∧
  (∀ (s : State) (code : Nat) (pressed : Bool), s.fault ≠ none ∨ 15 < code → s.setKey code pressed = s) ∧
  (∀ (s : State) (k : Nat), s.isPressed k = true ↔ ∃ h : k < 16, s.keys[k] = true) ∧
  (∀ s : State, (s.pressedKey = none ↔ ∀ k : Fin 16, s.keys[k.val] = false) ∧
    ∀ k, s.pressedKey = some k → ∃ h : k < 16, s.keys[k] = true ∧ ∀ j : Fin 16, j.val < k → s.keys[j.val] = false) ∧
  ∀ (op : HostOp) (s t : State) (reply : HostReply), op ≠ .reset → (∀ code pressed, op ≠ .setKey code pressed) →
    hostStep op s = .next (reply, t) → t.fault = none → t.keys = s.keys

/-- Rule R284. -/
def Obligations.ReadFbIsRowMajor : Prop :=
  ∀ s : State, ∃ px, hostStep .readFb s = .next (.frame px, s) ∧ px.length = 2048 ∧
    (∀ (r : Fin 32) (c : Fin 64), px[r.val * 64 + c.val]? = some (s.fb.pixel r c)) ∧ resolution = (64, 32)

/-- Rules R38 and R271. -/
def Obligations.ReadStatusShowsRecord : Prop :=
  ∀ s : State,
    (s.fault = none → hostStep .readStatus s = .next (.status ⟨false, 0, 0, false, 0, 0⟩, s)) ∧
    ∀ (cause : Cause) (pc : Word) (word : Option Word) (addr : FaultAddr), s.fault = some ⟨cause, pc, word, addr⟩ →
      hostStep .readStatus s = .next (.status ⟨true,
        (match cause with
          | .memBounds => 1
          | .stackOverflow => 2
          | .stackUnderflow => 3
          | .unknownOpcode => 4
          | .fontDigit => 5
          | .regIndex => 6),
        pc, word.isSome, word.getD 0, addr⟩, s)

/-- A sentence of rule R334. -/
def Obligations.IdleStateIsFixed : Prop :=
  ∀ s : State, s.Idle → step s = .next s ∧ ∀ rnd, stepWith rnd s = .next s

/-- The "written only by" sentences of 10_state.md, over all 34 instructions; the clause on the draw counter is about the model's own field (log entry 2, DESIGN CHOICE). -/
def Obligations.OnlyNamedInstrsWriteState : Prop :=
  ∀ (i : Instr) (s t : State), s.fault = none → exec i s = .next t → t.fault = none →
    t.keys = s.keys ∧ t.cfg = s.cfg ∧
    (t.fb ≠ s.fb → i = .cls ∨ ∃ x y n, i = .drw x y n) ∧
    (t.mem ≠ s.mem → ∃ x, i = .ldBVx x ∨ i = .stRegs x) ∧
    (t.dt ≠ s.dt → ∃ x, i = .ldDtVx x) ∧
    (t.st ≠ s.st → ∃ x, i = .ldStVx x) ∧
    (t.stack ≠ s.stack → ∃ nnn, i = .call nnn) ∧
    (t.sp ≠ s.sp → i = .ret ∨ ∃ nnn, i = .call nnn) ∧
    (t.i ≠ s.i → (∃ nnn, i = .ldI nnn) ∨ (∃ x, i = .addIVx x ∨ i = .ldFVx x) ∨
      (s.cfg.quirkIndexInc ≠ .none ∧ ∃ x, i = .stRegs x ∨ i = .ldRegs x)) ∧
    (t.draws ≠ s.draws → ∃ x kk, i = .rndByte x kk)

/-- The table of rule R26, written as State.nextPc in Safety.lean. -/
def Obligations.NextPcByInstruction : Prop :=
  ∀ (i : Instr) (s t : State), s.fault = none → exec i s = .next t →
    (t.fault = none → t.pc = s.nextPc i) ∧ ∀ r, t.fault = some r → t.pc = s.pc ∧ r.pc = s.pc

/-- The column "writes" of rule R23, written as writesReg in Safety.lean. -/
def Obligations.RegisterWritesByInstruction : Prop :=
  ∀ (i : Instr) (s t : State) (r : Nibble), s.fault = none → exec i s = .next t → t.fault = none →
    writesReg s.cfg i r = false → t.getV r = s.getV r

/-- The column "reads" of rule R23, written as readsReg in Safety.lean; of a state after a fault only the record is compared (rule R275). -/
def Obligations.RegisterReadsByInstruction : Prop :=
  ∀ (i : Instr) (s s' : State), s' = { s with v := s'.v } →
    (∀ r, readsReg s.cfg i r = true → s'.getV r = s.getV r) →
    ∃ t t', exec i s = .next t ∧ exec i s' = .next t' ∧ t'.fault = t.fault ∧
      (t.fault = none → t' = { t with v := t'.v } ∧ ∀ r, s'.getV r = s.getV r → t'.getV r = t.getV r)

/-- The host's way to run one instruction (log entry 5, DESIGN CHOICE). -/
def Obligations.WithFetchWordRunsWord : Prop :=
  ∀ (s : State) (nbits w : Nat) (i : Instr), decodeTableWord nbits w = some i →
    step (s.withFetchWord nbits w) = exec i (s.withFetchWord nbits w)

/-- Rule R274 gives the reply of a STEP that faults; what a STEP issued while FAULTED = 1 replies is the model's choice (log entry 12, DESIGN CHOICE). -/
def Obligations.StepReplyShowsFault : Prop :=
  ∀ (rnd : Byte) (s : State), ∃ t, stepWith rnd s = .next t ∧ hostStep (.step rnd) s = .next (.stepped t.fault, t)
end

