-- ==== Sys2Proof/Laws/Encoding.lean ====
section
/-! SUPPORT. The fields and the formats of an instruction word as numbers (30_encoding.md rules R81, R84). -/

namespace Sys2Proof

theorem fieldOp_toNat (w : Word) : (fieldOp w).toNat = w.toNat / 4096 := by
  have := w.isLt
  simp only [fieldOp, BitVec.extractLsb'_toNat, Nat.shiftRight_eq_div_pow]
  omega

theorem fieldX_toNat (w : Word) : (fieldX w).toNat = w.toNat / 256 % 16 := by
  simp [fieldX, BitVec.extractLsb'_toNat, Nat.shiftRight_eq_div_pow]

theorem fieldY_toNat (w : Word) : (fieldY w).toNat = w.toNat / 16 % 16 := by
  simp [fieldY, BitVec.extractLsb'_toNat, Nat.shiftRight_eq_div_pow]

theorem fieldN_toNat (w : Word) : (fieldN w).toNat = w.toNat % 16 := by
  simp [fieldN, BitVec.extractLsb'_toNat]

theorem fieldKK_toNat (w : Word) : (fieldKK w).toNat = w.toNat % 256 := by
  simp [fieldKK, BitVec.extractLsb'_toNat]

theorem fieldNNN_toNat (w : Word) : (fieldNNN w).toNat = w.toNat % 4096 := by
  simp [fieldNNN, BitVec.extractLsb'_toNat]

/-- The value of two bit strings put together, the first above the second. -/
theorem append_toNat {n m : Nat} (a : BitVec n) (b : BitVec m) : (a ++ b).toNat = a.toNat * 2 ^ m + b.toNat := by
  rw [BitVec.toNat_append, ← Nat.shiftLeft_add_eq_or_of_lt b.isLt, Nat.shiftLeft_eq]

theorem formatNNN_toNat (op : Nibble) (nnn : Addr12) : (formatNNN op nnn).toNat = op.toNat * 4096 + nnn.toNat :=
  append_toNat op nnn

theorem formatXKK_toNat (op x : Nibble) (kk : Byte) :
    (formatXKK op x kk).toNat = op.toNat * 4096 + x.toNat * 256 + kk.toNat := by
  have h : (formatXKK op x kk).toNat = (op ++ x).toNat * 256 + kk.toNat := append_toNat (op ++ x) kk
  rw [h, append_toNat]
  omega

theorem formatXYN_toNat (op x y n : Nibble) :
    (formatXYN op x y n).toNat = op.toNat * 4096 + x.toNat * 256 + y.toNat * 16 + n.toNat := by
  have h : (formatXYN op x y n).toNat = (op ++ x ++ y).toNat * 16 + n.toNat := append_toNat (op ++ x ++ y) n
  rw [h, append_toNat, append_toNat]
  omega

theorem wordOfBytes_toNat (hi lo : Byte) : (wordOfBytes hi lo).toNat = hi.toNat * 256 + lo.toNat := append_toNat hi lo

theorem highByte_toNat (w : Word) : (highByte w).toNat = w.toNat / 256 := by
  have := w.isLt
  simp only [highByte, BitVec.extractLsb'_toNat, Nat.shiftRight_eq_div_pow]
  omega

theorem lowByte_toNat (w : Word) : (lowByte w).toNat = w.toNat % 256 := by
  simp [lowByte, BitVec.extractLsb'_toNat]

/-- The bytes of a word form the word again (20_memory.md rule R63). -/
theorem wordOfBytes_bytes (w : Word) : wordOfBytes (highByte w) (lowByte w) = w := by
  apply BitVec.eq_of_toNat_eq
  rw [wordOfBytes_toNat, highByte_toNat, lowByte_toNat]
  omega

/-- A mask of format NNN, field by field. -/
theorem formatNNN_and (op op' : Nibble) (nnn nnn' : Addr12) :
    formatNNN op nnn &&& formatNNN op' nnn' = formatNNN (op &&& op') (nnn &&& nnn') :=
  BitVec.and_append

/-- A mask of format XKK, field by field. -/
theorem formatXKK_and (op op' x x' : Nibble) (kk kk' : Byte) :
    formatXKK op x kk &&& formatXKK op' x' kk' = formatXKK (op &&& op') (x &&& x') (kk &&& kk') := by
  have h : formatXKK op x kk &&& formatXKK op' x' kk' = (op ++ x &&& op' ++ x') ++ (kk &&& kk') := BitVec.and_append
  rw [h, BitVec.and_append]
  rfl

/-- A mask of format XYN, field by field. -/
theorem formatXYN_and (op op' x x' y y' n n' : Nibble) :
    formatXYN op x y n &&& formatXYN op' x' y' n' = formatXYN (op &&& op') (x &&& x') (y &&& y') (n &&& n') := by
  have h : formatXYN op x y n &&& formatXYN op' x' y' n' = (op ++ x ++ y &&& op' ++ x' ++ y') ++ (n &&& n') :=
    BitVec.and_append
  rw [h, BitVec.and_append, BitVec.and_append]
  rfl

/-- A word is its fields in format NNN. -/
theorem formatNNN_fields (w : Word) : formatNNN (fieldOp w) (fieldNNN w) = w := by
  apply BitVec.eq_of_toNat_eq
  rw [formatNNN_toNat, fieldOp_toNat, fieldNNN_toNat]
  omega

/-- A word is its fields in format XKK. -/
theorem formatXKK_fields (w : Word) : formatXKK (fieldOp w) (fieldX w) (fieldKK w) = w := by
  apply BitVec.eq_of_toNat_eq
  rw [formatXKK_toNat, fieldOp_toNat, fieldX_toNat, fieldKK_toNat]
  omega

/-- A word is its fields in format XYN. -/
theorem formatXYN_fields (w : Word) : formatXYN (fieldOp w) (fieldX w) (fieldY w) (fieldN w) = w := by
  apply BitVec.eq_of_toNat_eq
  rw [formatXYN_toNat, fieldOp_toNat, fieldX_toNat, fieldY_toNat, fieldN_toNat]
  omega

end Sys2Proof
end

