-- ==== Sys2Proof/Laws/Memory.lean ====
section
/-! SUPPORT. The laws of memory: a read after a write, the canonical form, and the runs of accesses. -/

namespace Sys2Proof.Machine

theorem Memory.get_erase (m : Memory) (a b : Nat) :
    (Memory.erase m a).get b = if b = a then Memory.unlisted a else m.get b := by
  induction m with
  | nil => simp only [Memory.erase, Memory.get]; split <;> simp_all
  | cons c m ih =>
    obtain ⟨d, v⟩ := c
    simp only [Memory.erase, Memory.get]
    by_cases hd : d = a <;> by_cases hb : d = b <;> by_cases hba : b = a <;> simp_all [Memory.get]

theorem Memory.get_insert (m : Memory) (a b : Nat) (v : Byte) (h : ∀ c ∈ m, c.1 ≠ a) :
    (Memory.insert m a v).get b = if b = a then v else m.get b := by
  induction m with
  | nil => simp only [Memory.insert, Memory.get, eq_comm]
  | cons c m ih =>
    obtain ⟨d, w⟩ := c
    have hd : d ≠ a := h (d, w) (by simp)
    have ih := ih fun c hc => h c (List.mem_cons_of_mem _ hc)
    simp only [Memory.insert]
    split
    · simp only [Memory.get, eq_comm (a := a)]
    · simp only [Memory.get, ih]
      by_cases hb : d = b
      · subst hb; simp [hd]
      · simp [hb]

theorem Memory.erase_fst_ne (m : Memory) (a : Nat) : ∀ c ∈ Memory.erase m a, c.1 ≠ a := by
  induction m with
  | nil => simp [Memory.erase]
  | cons c m ih =>
    obtain ⟨d, w⟩ := c
    simp only [Memory.erase]
    split
    · exact ih
    · intro c hc
      rcases List.mem_cons.1 hc with rfl | hc
      · assumption
      · exact ih c hc

/-- A read after a write: the value written at its address, every other address as before. -/
theorem Memory.get_set (m : Memory) (a b : Nat) (v : Byte) :
    (m.set a v).get b = if b = a then v else m.get b := by
  unfold Memory.set
  split
  · next h => rw [Memory.get_erase, h]
  · rw [Memory.get_insert _ _ _ _ (Memory.erase_fst_ne m a), Memory.get_erase]
    split <;> rfl

/-- A read after a run of writes. -/
theorem Memory.get_setList (bs : List Byte) (m : Memory) (a b : Nat) :
    (m.setList a bs).get b = if h : a ≤ b ∧ b - a < bs.length then bs[b - a]'h.2 else m.get b := by
  induction bs generalizing m a with
  | nil => simp [Memory.setList]
  | cons c bs ih =>
    simp only [Memory.setList, ih, Memory.get_set]
    by_cases hb : b = a
    · subst hb; simp
    · by_cases hlt : a < b
      · have e : b - a = (b - (a + 1)) + 1 := by omega
        have h1 : a + 1 ≤ b := hlt
        have h2 : a ≤ b := by omega
        simp only [e, List.length_cons, List.getElem_cons_succ, h1, h2, true_and, Nat.add_lt_add_iff_right, hb, if_false]
      · have h1 : ¬ a + 1 ≤ b := by omega
        have h2 : ¬ a ≤ b := by omega
        simp [h1, h2, hb]

theorem Memory.wfFrom_mono {lo lo' : Nat} (m : Memory) (h : lo ≤ lo') (hm : Memory.wfFrom lo' m = true) :
    Memory.wfFrom lo m = true := by
  cases m with
  | nil => rfl
  | cons c m =>
    obtain ⟨a, v⟩ := c
    simp only [Memory.wfFrom, Bool.and_eq_true, decide_eq_true_eq] at hm ⊢
    exact ⟨⟨⟨by omega, hm.1.1.2⟩, hm.1.2⟩, hm.2⟩

theorem Memory.wfFrom_erase (lo : Nat) (m : Memory) (a : Nat) (hm : Memory.wfFrom lo m = true) :
    Memory.wfFrom lo (m.erase a) = true := by
  induction m generalizing lo with
  | nil => rfl
  | cons c m ih =>
    obtain ⟨b, v⟩ := c
    simp only [Memory.wfFrom, Bool.and_eq_true, decide_eq_true_eq] at hm
    simp only [Memory.erase]
    split
    · exact Memory.wfFrom_mono _ (by omega) (ih _ hm.2)
    · simp only [Memory.wfFrom, Bool.and_eq_true, decide_eq_true_eq]
      exact ⟨hm.1, ih _ hm.2⟩

theorem Memory.wfFrom_insert (lo : Nat) (m : Memory) (a : Nat) (v : Byte) (hm : Memory.wfFrom lo m = true)
    (hlo : lo ≤ a) (ha : a < 4096) (hv : v ≠ Memory.unlisted a) (hne : ∀ c ∈ m, c.1 ≠ a) :
    Memory.wfFrom lo (m.insert a v) = true := by
  induction m generalizing lo with
  | nil => simp [Memory.insert, Memory.wfFrom, hlo, ha, hv]
  | cons c m ih =>
    obtain ⟨b, w⟩ := c
    have hb : b ≠ a := hne (b, w) (by simp)
    simp only [Memory.wfFrom, Bool.and_eq_true, decide_eq_true_eq] at hm
    simp only [Memory.insert]
    split
    · simp only [Memory.wfFrom, Bool.and_eq_true, decide_eq_true_eq, bne_iff_ne, ne_eq]
      exact ⟨⟨⟨hlo, ha⟩, hv⟩, ⟨⟨by omega, hm.1.1.2⟩, by simpa using hm.1.2⟩, hm.2⟩
    · simp only [Memory.wfFrom, Bool.and_eq_true, decide_eq_true_eq]
      exact ⟨hm.1, ih _ hm.2 (by omega) fun c hc => hne c (List.mem_cons_of_mem _ hc)⟩

/-- A write in bounds keeps the canonical form. -/
theorem Memory.wf_set (m : Memory) (a : Nat) (v : Byte) (ha : a < 4096) (hm : m.wf = true) :
    (m.set a v).wf = true := by
  unfold Memory.set Memory.wf
  split
  · exact Memory.wfFrom_erase 0 m a hm
  · next hv =>
    exact Memory.wfFrom_insert 0 _ a v (Memory.wfFrom_erase 0 m a hm) (Nat.zero_le a) ha hv (Memory.erase_fst_ne m a)

/-- A run of writes in bounds keeps the canonical form. -/
theorem Memory.wf_setList (bs : List Byte) (m : Memory) (a : Nat) (ha : a + bs.length ≤ 4096) (hm : m.wf = true) :
    (m.setList a bs).wf = true := by
  induction bs generalizing m a with
  | nil => exact hm
  | cons b bs ih =>
    simp only [List.length_cons] at ha
    exact ih _ _ (by omega) (Memory.wf_set m a b (by omega) hm)

/-- What `writeRun` answers: all bytes written where the whole run is in bounds, else the first address out of bounds. -/
theorem writeRun_eq (bs : List Byte) (m : Memory) (a : Nat) :
    writeRun m a bs =
      if bs = [] ∨ a + bs.length ≤ 4096 then .ok (m.setList a bs) else .error (max a 4096) := by
  induction bs generalizing m a with
  | nil => simp [writeRun, Memory.setList]
  | cons b bs ih =>
    simp only [writeRun, memWrite, Memory.setList, List.length_cons, reduceCtorEq, false_or]
    by_cases ha : a < 4096
    · simp only [if_pos ha, ih]
      cases bs with
      | nil => simp; omega
      | cons c bs =>
        simp only [List.length_cons, reduceCtorEq, false_or]
        by_cases h : a + 1 + (bs.length + 1) ≤ 4096
        · rw [if_pos h, if_pos (by omega)]
        · rw [if_neg h, if_neg (by omega), Nat.max_eq_right (by omega), Nat.max_eq_right (by omega)]
    · simp only [if_neg ha]
      rw [if_neg (by omega), Nat.max_eq_left (by omega)]

/-- What `readRun` answers: the bytes where the whole run is in bounds, else the first address out of bounds. -/
theorem readRun_eq (n : Nat) (m : Memory) (a : Nat) :
    readRun m a n =
      if n = 0 ∨ a + n ≤ 4096 then .ok ((List.range n).map fun j => m.get (a + j)) else .error (max a 4096) := by
  induction n generalizing a with
  | zero => simp [readRun]
  | succ n ih =>
    simp only [readRun, memRead, ih]
    by_cases ha : a < 4096
    · simp only [if_pos ha]
      by_cases h : n = 0 ∨ a + 1 + n ≤ 4096
      · rw [if_pos h, if_pos (by omega), List.range_succ_eq_map]
        simp [Function.comp_def, Nat.add_assoc, Nat.add_comm 1]
      · rw [if_neg h, if_neg (by omega), Nat.max_eq_right (by omega), Nat.max_eq_right (by omega)]
    · simp only [if_neg ha]
      rw [if_neg (by omega), Nat.max_eq_left (by omega)]

/-- What is left of a faulted run of writes is in canonical form. -/
theorem writeLanded_wf (k : Nat) (bs : List Byte) (m : Memory) (a : Nat) (hm : m.wf = true) :
    (writeLanded k m a bs).wf = true := by
  induction bs generalizing m a with
  | nil => exact hm
  | cons b bs ih =>
    simp only [writeLanded]
    split
    · next ha =>
      apply ih
      split
      · exact Memory.wf_set m a b ha hm
      · exact hm
    · exact hm

end Sys2Proof.Machine
end

