-- ==== Sys2Proof/Laws/State.lean ====
section
/-! SUPPORT. One lemma per field per update of State, so that no proof unfolds a record update. -/

namespace Sys2Proof.Machine

@[simp] theorem State.setV_v (s : State) (x : Nibble) (b : Byte) : (s.setV x b).v = s.v.set x.toNat b x.isLt := rfl
@[simp] theorem State.setV_i (s : State) (x : Nibble) (b : Byte) : (s.setV x b).i = s.i := rfl
@[simp] theorem State.setV_pc (s : State) (x : Nibble) (b : Byte) : (s.setV x b).pc = s.pc := rfl
@[simp] theorem State.setV_stack (s : State) (x : Nibble) (b : Byte) : (s.setV x b).stack = s.stack := rfl
@[simp] theorem State.setV_sp (s : State) (x : Nibble) (b : Byte) : (s.setV x b).sp = s.sp := rfl
@[simp] theorem State.setV_dt (s : State) (x : Nibble) (b : Byte) : (s.setV x b).dt = s.dt := rfl
@[simp] theorem State.setV_st (s : State) (x : Nibble) (b : Byte) : (s.setV x b).st = s.st := rfl
@[simp] theorem State.setV_keys (s : State) (x : Nibble) (b : Byte) : (s.setV x b).keys = s.keys := rfl
@[simp] theorem State.setV_fb (s : State) (x : Nibble) (b : Byte) : (s.setV x b).fb = s.fb := rfl
@[simp] theorem State.setV_mem (s : State) (x : Nibble) (b : Byte) : (s.setV x b).mem = s.mem := rfl
@[simp] theorem State.setV_fault (s : State) (x : Nibble) (b : Byte) : (s.setV x b).fault = s.fault := rfl
@[simp] theorem State.setV_cfg (s : State) (x : Nibble) (b : Byte) : (s.setV x b).cfg = s.cfg := rfl
@[simp] theorem State.setV_draws (s : State) (x : Nibble) (b : Byte) : (s.setV x b).draws = s.draws := rfl

@[simp] theorem State.setPc_v (s : State) (p : Word) : (s.setPc p).v = s.v := rfl
@[simp] theorem State.setPc_i (s : State) (p : Word) : (s.setPc p).i = s.i := rfl
@[simp] theorem State.setPc_pc (s : State) (p : Word) : (s.setPc p).pc = p := rfl
@[simp] theorem State.setPc_stack (s : State) (p : Word) : (s.setPc p).stack = s.stack := rfl
@[simp] theorem State.setPc_sp (s : State) (p : Word) : (s.setPc p).sp = s.sp := rfl
@[simp] theorem State.setPc_dt (s : State) (p : Word) : (s.setPc p).dt = s.dt := rfl
@[simp] theorem State.setPc_st (s : State) (p : Word) : (s.setPc p).st = s.st := rfl
@[simp] theorem State.setPc_keys (s : State) (p : Word) : (s.setPc p).keys = s.keys := rfl
@[simp] theorem State.setPc_fb (s : State) (p : Word) : (s.setPc p).fb = s.fb := rfl
@[simp] theorem State.setPc_mem (s : State) (p : Word) : (s.setPc p).mem = s.mem := rfl
@[simp] theorem State.setPc_fault (s : State) (p : Word) : (s.setPc p).fault = s.fault := rfl
@[simp] theorem State.setPc_cfg (s : State) (p : Word) : (s.setPc p).cfg = s.cfg := rfl
@[simp] theorem State.setPc_draws (s : State) (p : Word) : (s.setPc p).draws = s.draws := rfl

@[simp] theorem State.setI_v (s : State) (a : Word) : (s.setI a).v = s.v := rfl
@[simp] theorem State.setI_i (s : State) (a : Word) : (s.setI a).i = a := rfl
@[simp] theorem State.setI_pc (s : State) (a : Word) : (s.setI a).pc = s.pc := rfl
@[simp] theorem State.setI_stack (s : State) (a : Word) : (s.setI a).stack = s.stack := rfl
@[simp] theorem State.setI_sp (s : State) (a : Word) : (s.setI a).sp = s.sp := rfl
@[simp] theorem State.setI_dt (s : State) (a : Word) : (s.setI a).dt = s.dt := rfl
@[simp] theorem State.setI_st (s : State) (a : Word) : (s.setI a).st = s.st := rfl
@[simp] theorem State.setI_keys (s : State) (a : Word) : (s.setI a).keys = s.keys := rfl
@[simp] theorem State.setI_fb (s : State) (a : Word) : (s.setI a).fb = s.fb := rfl
@[simp] theorem State.setI_mem (s : State) (a : Word) : (s.setI a).mem = s.mem := rfl
@[simp] theorem State.setI_fault (s : State) (a : Word) : (s.setI a).fault = s.fault := rfl
@[simp] theorem State.setI_cfg (s : State) (a : Word) : (s.setI a).cfg = s.cfg := rfl
@[simp] theorem State.setI_draws (s : State) (a : Word) : (s.setI a).draws = s.draws := rfl

@[simp] theorem State.advance_v (s : State) : (s.advance).v = s.v := rfl
@[simp] theorem State.advance_i (s : State) : (s.advance).i = s.i := rfl
@[simp] theorem State.advance_pc (s : State) : (s.advance).pc = s.pc + 2 := rfl
@[simp] theorem State.advance_stack (s : State) : (s.advance).stack = s.stack := rfl
@[simp] theorem State.advance_sp (s : State) : (s.advance).sp = s.sp := rfl
@[simp] theorem State.advance_dt (s : State) : (s.advance).dt = s.dt := rfl
@[simp] theorem State.advance_st (s : State) : (s.advance).st = s.st := rfl
@[simp] theorem State.advance_keys (s : State) : (s.advance).keys = s.keys := rfl
@[simp] theorem State.advance_fb (s : State) : (s.advance).fb = s.fb := rfl
@[simp] theorem State.advance_mem (s : State) : (s.advance).mem = s.mem := rfl
@[simp] theorem State.advance_fault (s : State) : (s.advance).fault = s.fault := rfl
@[simp] theorem State.advance_cfg (s : State) : (s.advance).cfg = s.cfg := rfl
@[simp] theorem State.advance_draws (s : State) : (s.advance).draws = s.draws := rfl

@[simp] theorem State.skipIf_v (s : State) (c : Bool) : (s.skipIf c).v = s.v := rfl
@[simp] theorem State.skipIf_i (s : State) (c : Bool) : (s.skipIf c).i = s.i := rfl
@[simp] theorem State.skipIf_pc (s : State) (c : Bool) : (s.skipIf c).pc = if c then s.pc + 4 else s.pc + 2 := rfl
@[simp] theorem State.skipIf_stack (s : State) (c : Bool) : (s.skipIf c).stack = s.stack := rfl
@[simp] theorem State.skipIf_sp (s : State) (c : Bool) : (s.skipIf c).sp = s.sp := rfl
@[simp] theorem State.skipIf_dt (s : State) (c : Bool) : (s.skipIf c).dt = s.dt := rfl
@[simp] theorem State.skipIf_st (s : State) (c : Bool) : (s.skipIf c).st = s.st := rfl
@[simp] theorem State.skipIf_keys (s : State) (c : Bool) : (s.skipIf c).keys = s.keys := rfl
@[simp] theorem State.skipIf_fb (s : State) (c : Bool) : (s.skipIf c).fb = s.fb := rfl
@[simp] theorem State.skipIf_mem (s : State) (c : Bool) : (s.skipIf c).mem = s.mem := rfl
@[simp] theorem State.skipIf_fault (s : State) (c : Bool) : (s.skipIf c).fault = s.fault := rfl
@[simp] theorem State.skipIf_cfg (s : State) (c : Bool) : (s.skipIf c).cfg = s.cfg := rfl
@[simp] theorem State.skipIf_draws (s : State) (c : Bool) : (s.skipIf c).draws = s.draws := rfl

@[simp] theorem State.raise_v (s : State) (c : Cause) (w : Option Word) (a : Nat) : (s.raise c w a).v = s.v := rfl
@[simp] theorem State.raise_i (s : State) (c : Cause) (w : Option Word) (a : Nat) : (s.raise c w a).i = s.i := rfl
@[simp] theorem State.raise_pc (s : State) (c : Cause) (w : Option Word) (a : Nat) : (s.raise c w a).pc = s.pc := rfl
@[simp] theorem State.raise_stack (s : State) (c : Cause) (w : Option Word) (a : Nat) : (s.raise c w a).stack = s.stack := rfl
@[simp] theorem State.raise_sp (s : State) (c : Cause) (w : Option Word) (a : Nat) : (s.raise c w a).sp = s.sp := rfl
@[simp] theorem State.raise_dt (s : State) (c : Cause) (w : Option Word) (a : Nat) : (s.raise c w a).dt = s.dt := rfl
@[simp] theorem State.raise_st (s : State) (c : Cause) (w : Option Word) (a : Nat) : (s.raise c w a).st = s.st := rfl
@[simp] theorem State.raise_keys (s : State) (c : Cause) (w : Option Word) (a : Nat) : (s.raise c w a).keys = s.keys := rfl
@[simp] theorem State.raise_fb (s : State) (c : Cause) (w : Option Word) (a : Nat) : (s.raise c w a).fb = s.fb := rfl
@[simp] theorem State.raise_mem (s : State) (c : Cause) (w : Option Word) (a : Nat) : (s.raise c w a).mem = s.mem := rfl
@[simp] theorem State.raise_fault (s : State) (c : Cause) (w : Option Word) (a : Nat) : (s.raise c w a).fault = some ⟨c, s.pc, w, BitVec.ofNat 17 a⟩ := rfl
@[simp] theorem State.raise_cfg (s : State) (c : Cause) (w : Option Word) (a : Nat) : (s.raise c w a).cfg = s.cfg := rfl
@[simp] theorem State.raise_draws (s : State) (c : Cause) (w : Option Word) (a : Nat) : (s.raise c w a).draws = s.draws := rfl

@[simp] theorem State.setFlag_v (s : State) (c : Bool) : (s.setFlag c).v = s.v.set 15 (flagByte c) := rfl
@[simp] theorem State.setFlag_i (s : State) (c : Bool) : (s.setFlag c).i = s.i := rfl
@[simp] theorem State.setFlag_pc (s : State) (c : Bool) : (s.setFlag c).pc = s.pc := rfl
@[simp] theorem State.setFlag_stack (s : State) (c : Bool) : (s.setFlag c).stack = s.stack := rfl
@[simp] theorem State.setFlag_sp (s : State) (c : Bool) : (s.setFlag c).sp = s.sp := rfl
@[simp] theorem State.setFlag_dt (s : State) (c : Bool) : (s.setFlag c).dt = s.dt := rfl
@[simp] theorem State.setFlag_st (s : State) (c : Bool) : (s.setFlag c).st = s.st := rfl
@[simp] theorem State.setFlag_keys (s : State) (c : Bool) : (s.setFlag c).keys = s.keys := rfl
@[simp] theorem State.setFlag_fb (s : State) (c : Bool) : (s.setFlag c).fb = s.fb := rfl
@[simp] theorem State.setFlag_mem (s : State) (c : Bool) : (s.setFlag c).mem = s.mem := rfl
@[simp] theorem State.setFlag_fault (s : State) (c : Bool) : (s.setFlag c).fault = s.fault := rfl
@[simp] theorem State.setFlag_cfg (s : State) (c : Bool) : (s.setFlag c).cfg = s.cfg := rfl
@[simp] theorem State.setFlag_draws (s : State) (c : Bool) : (s.setFlag c).draws = s.draws := rfl

@[simp] theorem State.applyRnd_v (s : State) (r : Byte) (x : Nibble) (kk : Byte) : (s.applyRnd r x kk).v = s.v.set x.toNat (r &&& kk) x.isLt := rfl
@[simp] theorem State.applyRnd_i (s : State) (r : Byte) (x : Nibble) (kk : Byte) : (s.applyRnd r x kk).i = s.i := rfl
@[simp] theorem State.applyRnd_pc (s : State) (r : Byte) (x : Nibble) (kk : Byte) : (s.applyRnd r x kk).pc = s.pc + 2 := rfl
@[simp] theorem State.applyRnd_stack (s : State) (r : Byte) (x : Nibble) (kk : Byte) : (s.applyRnd r x kk).stack = s.stack := rfl
@[simp] theorem State.applyRnd_sp (s : State) (r : Byte) (x : Nibble) (kk : Byte) : (s.applyRnd r x kk).sp = s.sp := rfl
@[simp] theorem State.applyRnd_dt (s : State) (r : Byte) (x : Nibble) (kk : Byte) : (s.applyRnd r x kk).dt = s.dt := rfl
@[simp] theorem State.applyRnd_st (s : State) (r : Byte) (x : Nibble) (kk : Byte) : (s.applyRnd r x kk).st = s.st := rfl
@[simp] theorem State.applyRnd_keys (s : State) (r : Byte) (x : Nibble) (kk : Byte) : (s.applyRnd r x kk).keys = s.keys := rfl
@[simp] theorem State.applyRnd_fb (s : State) (r : Byte) (x : Nibble) (kk : Byte) : (s.applyRnd r x kk).fb = s.fb := rfl
@[simp] theorem State.applyRnd_mem (s : State) (r : Byte) (x : Nibble) (kk : Byte) : (s.applyRnd r x kk).mem = s.mem := rfl
@[simp] theorem State.applyRnd_fault (s : State) (r : Byte) (x : Nibble) (kk : Byte) : (s.applyRnd r x kk).fault = s.fault := rfl
@[simp] theorem State.applyRnd_cfg (s : State) (r : Byte) (x : Nibble) (kk : Byte) : (s.applyRnd r x kk).cfg = s.cfg := rfl
@[simp] theorem State.applyRnd_draws (s : State) (r : Byte) (x : Nibble) (kk : Byte) : (s.applyRnd r x kk).draws = s.draws + 1 := rfl

end Sys2Proof.Machine
end

