-- ==== Sys2Proof/Laws/Ops.lean ====
section
/-! SUPPORT. One lemma per shared operation: everything it can do, for proofs to cite instead of unfolding it. -/

namespace Sys2Proof.Machine

/-- A register read after a register write. -/
@[simp] theorem State.getV_setV (s : State) (x r : Nibble) (b : Byte) :
    (s.setV x b).getV r = if r = x then b else s.getV r := by
  simp only [State.getV, State.setV, Vector.getElem_set, BitVec.toNat_inj, eq_comm]

/-- A register read depends on the register file alone. -/
theorem State.getV_congr {s t : State} (h : s.v = t.v) (r : Nibble) : s.getV r = t.getV r := by
  simp only [State.getV, h]

/-- Push where there is room. -/
theorem State.push_of_lt (s : State) (a : Word) (h : s.sp.val < 16) :
    s.push a = .ok { s with stack := s.stack.set s.sp.val a h, sp := ⟨s.sp.val + 1, by omega⟩ } := by
  simp [State.push, h]

/-- Push on a full stack. -/
theorem State.push_of_full (s : State) (a : Word) (h : ¬ s.sp.val < 16) : s.push a = .error .stackOverflow := by
  simp [State.push, h]

/-- Pop where an entry is live. -/
theorem State.pop_of_pos (s : State) (h : 0 < s.sp.val) :
    s.pop = .ok (s.stack[s.sp.val - 1]'(by omega), { s with sp := ⟨s.sp.val - 1, by omega⟩ }) := by
  simp [State.pop, h]

/-- Pop on an empty stack. -/
theorem State.pop_of_empty (s : State) (h : ¬ 0 < s.sp.val) : s.pop = .error .stackUnderflow := by
  simp [State.pop, h]

/-- The stores of Fx33 and Fx55 where the whole run is in bounds. -/
theorem State.storeThen_of_le (s : State) (w : Word) (bytes : List Byte) (next : State → State)
    (h : s.i.toNat + bytes.length ≤ 4096) :
    s.storeThen w bytes next = next { s with mem := s.mem.setList s.i.toNat bytes } := by
  simp only [State.storeThen, writeRun_eq, if_pos (Or.inr h)]

/-- The stores of Fx33 and Fx55 where an address is out of bounds. -/
theorem State.storeThen_of_gt (s : State) (w : Word) (bytes : List Byte) (next : State → State)
    (hne : bytes ≠ []) (h : 4096 < s.i.toNat + bytes.length) :
    s.storeThen w bytes next =
      { s with mem := writeLanded s.draws s.mem s.i.toNat bytes, draws := s.draws + 1 }.raise .memBounds (some w)
        (max s.i.toNat 4096) := by
  have hn : ¬ (bytes = [] ∨ s.i.toNat + bytes.length ≤ 4096) := by simp [hne]; omega
  simp only [State.storeThen, writeRun_eq, if_neg hn]

/-- The loads of Fx65 where the whole run is in bounds. -/
theorem State.loadThen_of_le (s : State) (w : Word) (x : Nibble) (next : State → State)
    (h : s.i.toNat + x.toNat < 4096) :
    s.loadThen w x next = next (s.setRegs 0 ((List.range (x.toNat + 1)).map fun j => s.mem.get (s.i.toNat + j))) := by
  have h' : x.toNat + 1 = 0 ∨ s.i.toNat + (x.toNat + 1) ≤ 4096 := by omega
  simp only [State.loadThen, readRun_eq, if_pos h']

/-- The loads of Fx65 where an address is out of bounds. -/
theorem State.loadThen_of_ge (s : State) (w : Word) (x : Nibble) (next : State → State)
    (h : 4096 ≤ s.i.toNat + x.toNat) :
    s.loadThen w x next =
      { s.loadLanded s.draws s.i.toNat 0 (x.toNat + 1) with draws := s.draws + 1 }.raise .memBounds (some w)
        (max s.i.toNat 4096) := by
  have hn : ¬ (x.toNat + 1 = 0 ∨ s.i.toNat + (x.toNat + 1) ≤ 4096) := by omega
  simp only [State.loadThen, readRun_eq, if_neg hn]

/-- Register loads write the register file alone. -/
theorem State.setRegs_frame (bs : List Byte) (s : State) (j : Nat) :
    s.setRegs j bs = { s with v := (s.setRegs j bs).v } := by
  induction bs generalizing s j with
  | nil => rfl
  | cons b bs ih => exact ih (s.setV (BitVec.ofNat 4 j) b) (j + 1)

/-- What the register loads leave in each register. -/
theorem State.getV_setRegs (bs : List Byte) (s : State) (j : Nat) (hj : j + bs.length ≤ 16) (r : Nibble) :
    (s.setRegs j bs).getV r =
      if h : j ≤ r.toNat ∧ r.toNat - j < bs.length then bs[r.toNat - j]'h.2 else s.getV r := by
  induction bs generalizing s j with
  | nil => simp [State.setRegs]
  | cons b bs ih =>
    simp only [List.length_cons] at hj
    have key : (r = BitVec.ofNat 4 j) ↔ r.toNat = j := by
      rw [← BitVec.toNat_inj, BitVec.toNat_ofNat, Nat.mod_eq_of_lt (by omega)]
    simp only [State.setRegs, ih _ (j + 1) (by omega), State.getV_setV, key]
    by_cases hr : r.toNat = j
    · simp [hr]
    · by_cases hlt : j < r.toNat
      · have e : r.toNat - j = (r.toNat - (j + 1)) + 1 := by omega
        have h1 : j + 1 ≤ r.toNat := hlt
        have h2 : j ≤ r.toNat := by omega
        simp only [e, List.length_cons, List.getElem_cons_succ, h1, h2, true_and, Nat.add_lt_add_iff_right, hr, if_false]
      · have h1 : ¬ j + 1 ≤ r.toNat := by omega
        have h2 : ¬ j ≤ r.toNat := by omega
        simp [h1, h2, hr]

/-- A faulted run of loads changes the register file alone. -/
theorem State.loadLanded_frame (k n : Nat) (s : State) (a j : Nat) :
    s.loadLanded k a j n = { s with v := (s.loadLanded k a j n).v } := by
  induction n generalizing s a j with
  | zero => rfl
  | succ n ih =>
    simp only [State.loadLanded]
    split
    · split
      · exact ih (s.setV (BitVec.ofNat 4 j) (s.mem.get a)) (a + 1) (j + 1)
      · exact ih s (a + 1) (j + 1)
    · rfl

/-- The sprite bytes of Dxyn: read where the slice is inside memory, else the first address out of bounds. -/
theorem State.spriteBytes_eq (s : State) (n : Nibble) :
    s.spriteBytes n =
      if s.i.toNat < 4096 ∧ s.i.toNat + n.toNat ≤ 4096 then
        .ok ((List.range n.toNat).map fun j => s.mem.get (s.i.toNat + j))
      else .error (max s.i.toNat 4096) := by
  have hn : n = 0 ↔ n.toNat = 0 := by rw [← BitVec.toNat_inj]; rfl
  simp only [State.spriteBytes, readRun_eq, hn]
  by_cases h : s.i.toNat < 4096 ∧ s.i.toNat + n.toNat ≤ 4096
  · rw [if_neg (by omega), if_pos (by omega), if_pos h]
  · rw [if_neg h]
    by_cases h0 : n.toNat = 0 ∧ 4096 ≤ s.i.toNat
    · rw [if_pos h0, Nat.max_eq_left h0.2]
    · rw [if_neg h0, if_neg (by omega)]

/-- A pixel after a pixel write. -/
theorem Framebuffer.pixel_setPixel (fb : Framebuffer) (r r' : Fin 32) (c c' : Fin 64) (b : Bool) :
    (fb.setPixel r c b).pixel r' c' = if r' = r ∧ c' = c then b else fb.pixel r' c' := by
  simp only [Framebuffer.pixel, Framebuffer.setPixel, Vector.getElem_set, Fin.ext_iff]
  by_cases hr : r.val = r'.val
  · simp only [hr, if_pos, true_and, Vector.getElem_set]
    simp only [eq_comm]
  · have hr' : ¬ r'.val = r.val := fun h => hr h.symm
    simp [hr, hr']

/-- Framebuffers that agree pixel by pixel are equal. -/
theorem Framebuffer.ext_pixel {f g : Framebuffer} (h : ∀ r c, f.pixel r c = g.pixel r c) : f = g := by
  apply Vector.ext
  intro r hr
  apply Vector.ext
  intro c hc
  exact h ⟨r, hr⟩ ⟨c, hc⟩

/-- One bit of a sprite: what it does to each pixel. -/
theorem pixel_drawBit (cx cy : Nat) (b : Byte) (row col : Nat) (d : Framebuffer × Bool) (r : Fin 32) (c : Fin 64) :
    Framebuffer.pixel (drawBit cx cy b row col d).1 r c =
      (Framebuffer.pixel d.1 r c ^^ (b.getLsbD (7 - col) &&
        decide (r = Fin.ofNat 32 (cy + row) ∧ c = Fin.ofNat 64 (cx + col)))) := by
  unfold drawBit
  by_cases hb : b.getLsbD (7 - col) = true
  · simp only [hb, if_true, Framebuffer.pixel_setPixel, Bool.true_and]
    split
    · next h => simp [h]
    · next h => rw [decide_eq_false h, Bool.xor_false]
  · simp [hb]

/-- One bit of a sprite: when it collides. -/
theorem collision_drawBit (cx cy : Nat) (b : Byte) (row col : Nat) (d : Framebuffer × Bool) :
    (drawBit cx cy b row col d).2 =
      (d.2 || (b.getLsbD (7 - col) && Framebuffer.pixel d.1 (Fin.ofNat 32 (cy + row)) (Fin.ofNat 64 (cx + col)))) := by
  unfold drawBit
  by_cases hb : b.getLsbD (7 - col) = true <;> simp [hb]

/-- Instruction fetch: the word at pc up to 0x0FFE, else the first address out of bounds. -/
theorem State.fetch_eq (s : State) :
    s.fetch = if s.pc.toNat ≤ 0xFFE then .ok s.wordAtPc else .error (max s.pc.toNat 4096) := by
  simp only [State.fetch, memRead, State.wordAtPc]
  by_cases h : s.pc.toNat ≤ 0xFFE
  · rw [if_pos (by omega), if_pos h, if_pos (by omega)]
  · rw [if_neg h]
    by_cases h1 : s.pc.toNat < 4096
    · rw [if_pos h1, if_neg (by omega)]
      exact congrArg Except.error (by omega)
    · rw [if_neg h1]
      exact congrArg Except.error (by omega)

/-- The instruction cycle while FAULTED. -/
theorem instructionCycle_of_faulted (run : Instr → State → Out) (s : State) (r : FaultRecord) (h : s.fault = some r) :
    instructionCycle run s = .next s := by
  simp [instructionCycle, h]

/-- The instruction cycle while FAULTED is 0. -/
theorem instructionCycle_of_running (run : Instr → State → Out) (s : State) (h : s.fault = none) :
    instructionCycle run s =
      if s.pc.toNat ≤ 0xFFE then runWord run s.wordAtPc s
      else .next (s.raise .memBounds none (max s.pc.toNat 4096)) := by
  simp only [instructionCycle, h, State.fetch_eq]
  by_cases h1 : s.pc.toNat ≤ 0xFFE <;> simp only [h1, if_true, if_false]

/-- A word of no row raises UNKNOWN_OPCODE. -/
theorem runWord_of_error (run : Instr → State → Out) (w : Word) (s : State) (e : DecodeError)
    (h : decodeWord w = .error e) : runWord run w s = .next (s.raise .unknownOpcode (some w) 0) := by
  simp only [runWord, h]

/-- A word of some row is executed. -/
theorem runWord_of_ok (run : Instr → State → Out) (w : Word) (s : State) (i : Instr) (h : decodeWord w = .ok i) :
    runWord run w s = run i s := by
  simp only [runWord, h]

/-- The index update of Fx55 and Fx65 changes I alone. -/
theorem State.indexInc_frame (s : State) (a : Nat) (x : Nibble) : s.indexInc a x = { s with i := (s.indexInc a x).i } := by
  unfold State.indexInc; split <;> rfl

/-- A bit in the key latch, as the program reads it. -/
theorem State.isPressed_of_lt (s : State) (k : Nat) (h : k < 16) : s.isPressed k = s.keys[k] := by
  simp [State.isPressed, h]

/-- A key code above 15 is not pressed. -/
theorem State.isPressed_of_ge (s : State) (k : Nat) (h : ¬ k < 16) : s.isPressed k = false := by
  simp [State.isPressed, h]

/-- The pressed key an Fx0A finds is pressed, and no lower one is. -/
theorem State.pressedKey_some (s : State) (k : Nat) (h : s.pressedKey = some k) :
    k < 16 ∧ s.isPressed k = true ∧ ∀ j, j < k → s.isPressed j = false := by
  obtain ⟨hk, i, hi, he, hlt⟩ := List.find?_eq_some_iff_getElem.1 h
  simp only [List.getElem_range] at he
  subst he
  refine ⟨by simpa using hi, hk, fun j hj => ?_⟩
  simpa using hlt j hj

/-- Fx0A finds no key exactly when none is pressed. -/
theorem State.pressedKey_none (s : State) : s.pressedKey = none ↔ ∀ j, j < 16 → s.isPressed j = false := by
  simp [State.pressedKey, List.find?_eq_none, List.mem_range]

end Sys2Proof.Machine
end

