-- ==== Sys2Proof/Laws/PerInstr.lean ====
section
/-! SUPPORT. Per instruction: its encoded word meets the mask and match of its row (30_encoding.md rule R86). -/

namespace Sys2Proof.Laws.RowOfWord

/-- The instruction's word is accepted by the instruction's own row of the opcode map. -/
def Statement (i : Instr) : Prop := i.pattern.accepts (encode i) = true

/-- A field under a mask of ones. -/
theorem keep_nibble (a : Nibble) : a &&& 0xF = a := BitVec.and_allOnes

/-- A field under a mask of ones. -/
theorem keep_byte (a : Byte) : a &&& 0xFF = a := BitVec.and_allOnes

/-- A field under a mask of zeros. -/
theorem drop_field {n : Nat} (a : BitVec n) : a &&& 0 = 0 := BitVec.and_zero

/-- A row that tests op alone accepts a word of format NNN with that op. -/
theorem accepts_nnn (op : Nibble) (nnn : Addr12) : (⟨formatNNN op 0, 0xF000⟩ : Pattern).accepts (formatNNN op nnn) = true := by
  have h : formatNNN op nnn &&& 0xF000 = formatNNN (op &&& 0xF) (nnn &&& 0) := formatNNN_and op 0xF nnn 0
  simp only [drop_field, keep_nibble] at h
  simpa only [Pattern.accepts, beq_iff_eq] using h

/-- A row that tests op alone accepts a word of format XKK with that op. -/
theorem accepts_xkk (op x : Nibble) (kk : Byte) : (⟨formatXKK op 0 0, 0xF000⟩ : Pattern).accepts (formatXKK op x kk) = true := by
  have h : formatXKK op x kk &&& 0xF000 = formatXKK (op &&& 0xF) (x &&& 0) (kk &&& 0) := formatXKK_and op 0xF x 0 kk 0
  simp only [drop_field, keep_nibble] at h
  simpa only [Pattern.accepts, beq_iff_eq] using h

/-- A row that tests op and the low byte accepts a word of format X with both. -/
theorem accepts_x (op x : Nibble) (kk : Byte) : (⟨formatXKK op 0 kk, 0xF0FF⟩ : Pattern).accepts (formatXKK op x kk) = true := by
  have h : formatXKK op x kk &&& 0xF0FF = formatXKK (op &&& 0xF) (x &&& 0) (kk &&& 0xFF) := formatXKK_and op 0xF x 0 kk 0xFF
  simp only [drop_field, keep_nibble, keep_byte] at h
  simpa only [Pattern.accepts, beq_iff_eq] using h

/-- A row that tests op and the low nibble accepts a word of format XY with both. -/
theorem accepts_xy (op x y n : Nibble) : (⟨formatXYN op 0 0 n, 0xF00F⟩ : Pattern).accepts (formatXYN op x y n) = true := by
  have h : formatXYN op x y n &&& 0xF00F = formatXYN (op &&& 0xF) (x &&& 0) (y &&& 0) (n &&& 0xF) :=
    formatXYN_and op 0xF x 0 y 0 n 0xF
  simp only [drop_field, keep_nibble] at h
  simpa only [Pattern.accepts, beq_iff_eq] using h

/-- A row that tests op alone accepts a word of format XYN with that op. -/
theorem accepts_xyn (op x y n : Nibble) : (⟨formatXYN op 0 0 0, 0xF000⟩ : Pattern).accepts (formatXYN op x y n) = true := by
  have h : formatXYN op x y n &&& 0xF000 = formatXYN (op &&& 0xF) (x &&& 0) (y &&& 0) (n &&& 0) :=
    formatXYN_and op 0xF x 0 y 0 n 0
  simp only [drop_field, keep_nibble] at h
  simpa only [Pattern.accepts, beq_iff_eq] using h

theorem cls : Statement .cls := rfl
theorem ret : Statement .ret := rfl
theorem jp (nnn : Addr12) : Statement (.jp nnn) := accepts_nnn 0x1 nnn
theorem call (nnn : Addr12) : Statement (.call nnn) := accepts_nnn 0x2 nnn
theorem seByte (x : Nibble) (kk : Byte) : Statement (.seByte x kk) := accepts_xkk 0x3 x kk
theorem sneByte (x : Nibble) (kk : Byte) : Statement (.sneByte x kk) := accepts_xkk 0x4 x kk
theorem seReg (x y : Nibble) : Statement (.seReg x y) := accepts_xy 0x5 x y 0x0
theorem ldByte (x : Nibble) (kk : Byte) : Statement (.ldByte x kk) := accepts_xkk 0x6 x kk
theorem addByte (x : Nibble) (kk : Byte) : Statement (.addByte x kk) := accepts_xkk 0x7 x kk
theorem ldReg (x y : Nibble) : Statement (.ldReg x y) := accepts_xy 0x8 x y 0x0
theorem orReg (x y : Nibble) : Statement (.orReg x y) := accepts_xy 0x8 x y 0x1
theorem andReg (x y : Nibble) : Statement (.andReg x y) := accepts_xy 0x8 x y 0x2
theorem xorReg (x y : Nibble) : Statement (.xorReg x y) := accepts_xy 0x8 x y 0x3
theorem addReg (x y : Nibble) : Statement (.addReg x y) := accepts_xy 0x8 x y 0x4
theorem subReg (x y : Nibble) : Statement (.subReg x y) := accepts_xy 0x8 x y 0x5
theorem shrReg (x y : Nibble) : Statement (.shrReg x y) := accepts_xy 0x8 x y 0x6
theorem subnReg (x y : Nibble) : Statement (.subnReg x y) := accepts_xy 0x8 x y 0x7
theorem shlReg (x y : Nibble) : Statement (.shlReg x y) := accepts_xy 0x8 x y 0xE
theorem sneReg (x y : Nibble) : Statement (.sneReg x y) := accepts_xy 0x9 x y 0x0
theorem ldI (nnn : Addr12) : Statement (.ldI nnn) := accepts_nnn 0xA nnn
theorem jpV0 (nnn : Addr12) : Statement (.jpV0 nnn) := accepts_nnn 0xB nnn
theorem rndByte (x : Nibble) (kk : Byte) : Statement (.rndByte x kk) := accepts_xkk 0xC x kk
theorem drw (x y n : Nibble) : Statement (.drw x y n) := accepts_xyn 0xD x y n
theorem skp (x : Nibble) : Statement (.skp x) := accepts_x 0xE x 0x9E
theorem sknp (x : Nibble) : Statement (.sknp x) := accepts_x 0xE x 0xA1
theorem ldVxDt (x : Nibble) : Statement (.ldVxDt x) := accepts_x 0xF x 0x07
theorem ldVxK (x : Nibble) : Statement (.ldVxK x) := accepts_x 0xF x 0x0A
theorem ldDtVx (x : Nibble) : Statement (.ldDtVx x) := accepts_x 0xF x 0x15
theorem ldStVx (x : Nibble) : Statement (.ldStVx x) := accepts_x 0xF x 0x18
theorem addIVx (x : Nibble) : Statement (.addIVx x) := accepts_x 0xF x 0x1E
theorem ldFVx (x : Nibble) : Statement (.ldFVx x) := accepts_x 0xF x 0x29
theorem ldBVx (x : Nibble) : Statement (.ldBVx x) := accepts_x 0xF x 0x33
theorem stRegs (x : Nibble) : Statement (.stRegs x) := accepts_x 0xF x 0x55
theorem ldRegs (x : Nibble) : Statement (.ldRegs x) := accepts_x 0xF x 0x65

end Sys2Proof.Laws.RowOfWord
end

