-- ==== Sys2Proof/Tests/Slice0.lean ====
section
/-! SUPPORT. Tests against 95_test_vectors.md, smoke tests of the well-formedness checks, and for every statement with
hypotheses a witness that meets them. -/

namespace Sys2Proof.Tests

open Sys2Proof.Machine

/-- The start state of the vectors. -/
def start : State := State.reset

/-- One STEP of the instruction word `w` placed at pc: whether it answers a next state with the property. -/
def steps (w : Nat) (s : State) (p : State → Bool) : Bool :=
  match step (s.withFetchWord 16 w) with
  | .next t => p t
  | _ => false

/-- The same with the random byte given. -/
def stepsWith (rnd : Byte) (w : Nat) (s : State) (p : State → Bool) : Bool :=
  match stepWith rnd (s.withFetchWord 16 w) with
  | .next t => p t
  | _ => false

/-- Bytes placed in memory from `a` up. -/
def bytes (a : Nat) (bs : List Byte) (s : State) : State := { s with mem := s.mem.setList a bs }

/-- A key pressed. -/
def pressed (k : Fin 16) (s : State) : State := { s with keys := s.keys.set k.val true }

/-- Another configuration. -/
def quirk (f : Config → Config) (s : State) : State := { s with cfg := f s.cfg }

/-- A state after a fault: the seventeenth push of vector F7. -/
def stuck : State := { start with fault := some ⟨.stackOverflow, 0x202, some 0x2400, 0⟩ }

/-! One STEP of each instruction, on the vectors of sections 1 to 3. -/

/-- Vector D1. -/
theorem test_cls_clears :
    steps 0x00E0 { start with fb := start.fb.setPixel 31 63 true }
      (fun t => !t.fb.pixel 31 63 && t.pc == 0x202 && t.getV 0xF == 0) = true := by decide

/-- Vectors S8 and D2. -/
theorem test_drw_wraps_columns :
    steps 0xD012 { bytes 0x300 [0xFF, 0x81] (start.setV 0 60) with i := 0x300 }
      (fun t => t.fb.pixel 0 60 && t.fb.pixel 0 3 && !t.fb.pixel 0 4 && t.fb.pixel 1 60 &&
        !t.fb.pixel 1 61 && t.fb.pixel 1 3 && t.getV 0xF == 0 && t.pc == 0x202) = true := by decide

/-- Vector D3. -/
theorem test_drw_collides :
    steps 0xD012 { bytes 0x300 [0xFF, 0x81] (start.setV 0 60) with i := 0x300, fb := start.fb.setPixel 0 62 true }
      (fun t => !t.fb.pixel 0 62 && t.fb.pixel 0 61 && t.getV 0xF == 1) = true := by decide

/-- Vector F1. -/
theorem test_ret_pops :
    steps 0x00EE { start with pc := 0x300, sp := 1, stack := start.stack.set 0 0x206 }
      (fun t => t.pc == 0x206 && t.sp == 0) = true := by decide

/-- Vector F3. -/
theorem test_jp :
    steps 0x1234 start
      (fun t => t.pc == 0x234) = true := by decide

/-- Vector F6. -/
theorem test_call_sixteenth_push :
    steps 0x2400 { start with pc := 0x202, sp := 15 }
      (fun t => t.pc == 0x400 && t.sp == 16 && t.stack[15] == 0x204) = true := by decide

/-- Vector F7. -/
theorem test_call_overflows :
    steps 0x2400 { start with pc := 0x202, sp := 16 }
      (fun t => t.fault == some ⟨.stackOverflow, 0x202, some 0x2400, 0⟩) = true := by decide

/-- Vector F2. -/
theorem test_ret_underflows :
    steps 0x00EE start
      (fun t => t.fault == some ⟨.stackUnderflow, 0x200, some 0x00EE, 0⟩) = true := by decide

/-- Vector F10. -/
theorem test_jp_v0_past_memory :
    steps 0xBFFF (start.setV 0 0xFF)
      (fun t => t.pc == 0x10FE && t.fault.isNone) = true := by decide

/-- Vector K1. -/
theorem test_se_byte_skips :
    steps 0x3A42 (start.setV 0xA 0x42)
      (fun t => t.pc == 0x204) = true := by decide

/-- Vector K10. -/
theorem test_se_byte_at_top :
    steps 0x3000 { start with pc := 0xFFC }
      (fun t => t.pc == 0x1000 && t.fault.isNone) = true := by decide

/-- Vector K3. -/
theorem test_sne_byte_equal :
    steps 0x4A42 (start.setV 0xA 0x42)
      (fun t => t.pc == 0x202) = true := by decide

/-- Vector K4. -/
theorem test_sne_byte_differs :
    steps 0x4A42 (start.setV 0xA 0x41)
      (fun t => t.pc == 0x204) = true := by decide

/-- Vector K5. -/
theorem test_se_reg_equal :
    steps 0x5120 ((start.setV 1 7).setV 2 7)
      (fun t => t.pc == 0x204) = true := by decide

/-- Vector K6. -/
theorem test_se_reg_differs :
    steps 0x5120 ((start.setV 1 7).setV 2 8)
      (fun t => t.pc == 0x202) = true := by decide

/-- Vector K8. -/
theorem test_sne_reg_equal :
    steps 0x9120 ((start.setV 1 7).setV 2 7)
      (fun t => t.pc == 0x202) = true := by decide

/-- Vector K9. -/
theorem test_sne_reg_differs :
    steps 0x9120 ((start.setV 1 7).setV 2 8)
      (fun t => t.pc == 0x204) = true := by decide

/-- Vector K11. -/
theorem test_skp_pressed :
    steps 0xE39E (pressed 5 (start.setV 3 5))
      (fun t => t.pc == 0x204) = true := by decide

/-- Vector K13. -/
theorem test_skp_no_masking :
    steps 0xE39E (pressed 5 (start.setV 3 0x15))
      (fun t => t.pc == 0x202) = true := by decide

/-- Vector K14. -/
theorem test_sknp_pressed :
    steps 0xE3A1 (pressed 5 (start.setV 3 5))
      (fun t => t.pc == 0x202) = true := by decide

/-- Vector K16. -/
theorem test_sknp_code_above_15 :
    steps 0xE3A1 (start.setV 3 0x10)
      (fun t => t.pc == 0x204) = true := by decide

/-- Vector A1. -/
theorem test_ld_byte :
    steps 0x6A7F start
      (fun t => t.getV 0xA == 0x7F && t.pc == 0x202) = true := by decide

/-- Vector A2. -/
theorem test_add_byte_no_flag :
    steps 0x7AFF (start.setV 0xA 2)
      (fun t => t.getV 0xA == 1 && t.getV 0xF == 0) = true := by decide

/-- Vector A3. -/
theorem test_add_byte_to_vf :
    steps 0x7F01 (start.setV 0xF 0xFF)
      (fun t => t.getV 0xF == 0) = true := by decide

/-- Vector A5. -/
theorem test_ld_reg :
    steps 0x8120 ((start.setV 1 1).setV 2 0xAB)
      (fun t => t.getV 1 == 0xAB) = true := by decide

/-- Vector A6. -/
theorem test_or_keeps_vf :
    steps 0x8121 (((start.setV 1 0xF0).setV 2 0x0F).setV 0xF 7)
      (fun t => t.getV 1 == 0xFF && t.getV 0xF == 7) = true := by decide

/-- Vector A7. -/
theorem test_and_keeps_vf :
    steps 0x8122 (((start.setV 1 0xF0).setV 2 0x3C).setV 0xF 7)
      (fun t => t.getV 1 == 0x30 && t.getV 0xF == 7) = true := by decide

/-- Vector A8. -/
theorem test_xor_keeps_vf :
    steps 0x8123 (((start.setV 1 0xFF).setV 2 0x0F).setV 0xF 7)
      (fun t => t.getV 1 == 0xF0 && t.getV 0xF == 7) = true := by decide

/-- Vectors S3 and A9. -/
theorem test_add_reg_carry :
    steps 0x8124 ((start.setV 1 0xC8).setV 2 0x64)
      (fun t => t.getV 1 == 0x2C && t.getV 0xF == 1) = true := by decide

/-- Vector A13: the flag is written last. -/
theorem test_add_reg_into_vf :
    steps 0x8F14 ((start.setV 0xF 1).setV 1 0xFF)
      (fun t => t.getV 0xF == 1) = true := by decide

/-- Vector A16. -/
theorem test_sub_reg_borrow :
    steps 0x8125 ((start.setV 1 3).setV 2 5)
      (fun t => t.getV 1 == 0xFE && t.getV 0xF == 0) = true := by decide

/-- Vector A19: the result is written last. -/
theorem test_sub_reg_into_vf :
    steps 0x8F25 ((start.setV 0xF 5).setV 2 3)
      (fun t => t.getV 0xF == 2) = true := by decide

/-- Vector A21. -/
theorem test_shr_reads_vy :
    steps 0x8126 ((start.setV 1 0xAA).setV 2 4)
      (fun t => t.getV 1 == 2 && t.getV 0xF == 0) = true := by decide

/-- Vector A23. -/
theorem test_shr_into_vf :
    steps 0x8F26 (start.setV 2 3)
      (fun t => t.getV 0xF == 1) = true := by decide

/-- Vector A26. -/
theorem test_subn_reg_equal :
    steps 0x8127 ((start.setV 1 4).setV 2 4)
      (fun t => t.getV 1 == 0 && t.getV 0xF == 1) = true := by decide

/-- Vector A27. -/
theorem test_subn_reg_into_vf :
    steps 0x8F27 ((start.setV 0xF 1).setV 2 3)
      (fun t => t.getV 0xF == 2) = true := by decide

/-- Vector A28. -/
theorem test_shl_sets_flag :
    steps 0x812E (start.setV 2 0x81)
      (fun t => t.getV 1 == 2 && t.getV 0xF == 1) = true := by decide

/-- Vector A31. -/
theorem test_shl_into_vf :
    steps 0x8F2E (start.setV 2 0x81)
      (fun t => t.getV 0xF == 2) = true := by decide

/-- Vector A32. -/
theorem test_rnd_masks :
    (stepsWith 0xA7) 0xC30F start
      (fun t => t.getV 3 == 7 && t.pc == 0x202) = true := by decide

/-- Vector A33. -/
theorem test_rnd_zero_mask :
    (stepsWith 0xFF) 0xC300 (start.setV 3 9)
      (fun t => t.getV 3 == 0) = true := by decide

/-- Vector M1. -/
theorem test_ld_i :
    steps 0xA2F0 start
      (fun t => t.i == 0x2F0 && t.pc == 0x202) = true := by decide

/-- Vector M3. -/
theorem test_add_i_wraps :
    steps 0xF41E { start.setV 4 2 with i := 0xFFFF }
      (fun t => t.i == 1 && t.fault.isNone && t.getV 0xF == 0) = true := by decide

/-- Vector M4. -/
theorem test_add_i_past_memory :
    steps 0xF41E { start.setV 4 1 with i := 0xFFF }
      (fun t => t.i == 0x1000 && t.fault.isNone && t.getV 0xF == 0) = true := by decide

/-- Vectors S11 and M5. -/
theorem test_font_digit :
    steps 0xF729 (start.setV 7 0xA)
      (fun t => t.i == 0x032) = true := by decide

/-- Vector M7. -/
theorem test_font_digit_fault :
    steps 0xF729 (start.setV 7 0x10)
      (fun t => t.fault == some ⟨.fontDigit, 0x200, some 0xF729, 0⟩) = true := by decide

/-- Vector M11. -/
theorem test_bcd_at_top :
    steps 0xF233 { start.setV 2 100 with i := 0xFFD }
      (fun t => t.mem.get 0xFFD == 1 && t.mem.get 0xFFE == 0 &&
        t.mem.get 0xFFF == 0 && t.i == 0xFFD && t.fault.isNone) = true := by decide

/-- Vector M12. -/
theorem test_bcd_faults :
    steps 0xF233 { start.setV 2 1 with i := 0xFFE }
      (fun t => t.fault == some ⟨.memBounds, 0x200, some 0xF233, 0x1000⟩) = true := by decide

/-- Vector M13. -/
theorem test_store_regs :
    steps 0xF255 { ((start.setV 0 1).setV 1 2).setV 2 3 with i := 0x400 }
      (fun t => t.mem.get 0x400 == 1 && t.mem.get 0x401 == 2 &&
        t.mem.get 0x402 == 3 && t.mem.get 0x403 == 0 && t.i == 0x400) = true := by decide

/-- Vector M15. -/
theorem test_store_regs_faults :
    steps 0xF155 { start with i := 0xFFF }
      (fun t => t.fault == some ⟨.memBounds, 0x200, some 0xF155, 0x1000⟩) = true := by decide

/-- Vector M16. -/
theorem test_load_regs :
    steps 0xF265 { bytes 0x300 [2, 5, 4, 9] start with i := 0x300 }
      (fun t => t.getV 0 == 2 && t.getV 1 == 5 && t.getV 2 == 4 && t.getV 3 == 0 && t.i == 0x300) = true := by decide

/-- Vector M17. -/
theorem test_load_all_regs :
    steps 0xFF65 { bytes 0x30F [0x77] start with i := 0x300 }
      (fun t => t.getV 0xF == 0x77 && t.getV 0xE == 0) = true := by decide

/-- Vector T1. -/
theorem test_ld_vx_dt :
    steps 0xF307 { start with dt := 0x3C }
      (fun t => t.getV 3 == 0x3C && t.dt == 0x3C) = true := by decide

/-- Vector T2. -/
theorem test_ld_dt_vx :
    steps 0xF115 (start.setV 1 5)
      (fun t => t.dt == 5 && t.st == 0) = true := by decide

/-- Vector T3. -/
theorem test_ld_st_vx :
    steps 0xF218 (start.setV 2 10)
      (fun t => t.st == 10 && t.dt == 0 && t.soundOn) = true := by decide

/-- Vectors S12 and T4. -/
theorem test_key_wait_lowest :
    steps 0xF50A (pressed 7 (pressed 3 start))
      (fun t => t.getV 5 == 3 && t.pc == 0x202) = true := by decide

/-- Vector T5. -/
theorem test_key_wait_none :
    steps 0xF50A start
      (fun t => t.getV 5 == 0 && t.pc == 0x200 && t.fault.isNone) = true := by decide

/-- Vector X3. -/
theorem test_odd_pc :
    steps 0x1234 { start with pc := 0x201 }
      (fun t => t.pc == 0x234) = true := by decide

/-- Vector Q2. -/
theorem test_quirk_vf_reset :
    steps 0x8F21 (quirk (fun c => { c with quirkVfReset := true }) ((start.setV 0xF 0x10).setV 2 1))
      (fun t => t.getV 0xF == 0) = true := by decide

/-- Vector Q3. -/
theorem test_quirk_shift_vx :
    steps 0x8126 (quirk (fun c => { c with quirkShiftVx := true }) ((start.setV 1 0xAA).setV 2 4))
      (fun t => t.getV 1 == 0x55 && t.getV 0xF == 0) = true := by decide

/-- Vector Q5. -/
theorem test_quirk_index_x_plus_1 :
    steps 0xF255 (quirk (fun c => { c with quirkIndexInc := .xPlus1 }) { start with i := 0x400 })
      (fun t => t.i == 0x403) = true := by decide

/-- Vector Q6. -/
theorem test_quirk_index_x :
    steps 0xF265 (quirk (fun c => { c with quirkIndexInc := .x }) { start with i := 0x300 })
      (fun t => t.i == 0x302) = true := by decide

/-! Well-formedness: a term that each check refuses. -/

/-- A match bit outside the mask. -/
theorem smoke_pattern_value_outside_mask : Pattern.wellFormed ⟨0x8010, 0xF00F⟩ = false := by decide

/-- Two rows that accept one word. -/
theorem smoke_overlap_not_disjoint : Pattern.disjoint ⟨0x5000, 0xF00F⟩ ⟨0x5000, 0xF000⟩ = false := by decide

/-- A table with an ill-formed row, and one with overlapping rows. -/
theorem smoke_table_refused :
    tableWellFormed [⟨0x00E0, 0xFFFF⟩, ⟨0x8010, 0xF00F⟩] = false ∧
    tableWellFormed [⟨0x5000, 0xF00F⟩, ⟨0x1000, 0xF000⟩, ⟨0x5000, 0xF000⟩] = false := by decide

/-- The opcode map passes the same check. -/
theorem smoke_opcode_map : tableWellFormed opcodeMap = true := by decide

/-- A word a row does not accept. -/
theorem smoke_pattern_refuses_word : Pattern.accepts ⟨0x00E0, 0xFFFF⟩ 0x01E0 = false := by decide

/-- The illegal words of section 2.7, one of each illegal group of rule R91 and two of later extensions. -/
theorem smoke_illegal_words :
    [0x0000, 0x0123, 0x01E0, 0x00E1, 0x00FF, 0x5121, 0x800F, 0x8AB8, 0x9001, 0xE0FF, 0xE19F, 0xF030, 0xF0FF].all
      (fun w => !legalWord w && decodeWord w == .error (.unknownOpcode w)) = true := by decide

/-- Fewer than two bytes are no instruction. -/
theorem smoke_truncated : decode [0x12] = .error .truncated := by decide

/-! Encoding, on words written out from the map. -/

/-- The bytes of an instruction, the high byte first (vectors S13, S14). -/
theorem test_encode_bytes :
    encodeBytes (.jp 0x234) = [0x12, 0x34] ∧ encodeBytes .cls = [0x00, 0xE0] ∧
    encodeBytes (.ldByte 0x0 0x05) = [0x60, 0x05] ∧ encodeBytes (.drw 0x1 0x2 0x2) = [0xD1, 0x22] ∧
    encodeBytes (.ldRegs 0x2) = [0xF2, 0x65] := by decide

/-- A table word, and one that no row has. -/
theorem test_decode_table_word :
    decodeTableWord 16 0x8124 = some (.addReg 0x1 0x2) ∧ decodeTableWord 16 0x8128 = none := by decide

/-! Fetch and decode faults. -/

/-- Vectors X1 and X2: a fetch out of bounds. -/
theorem test_fetch_faults :
    step { start with pc := 0xFFF } =
      .next { start with pc := 0xFFF, fault := some ⟨.memBounds, 0xFFF, none, 0x1000⟩ } ∧
    step { start with pc := 0x1000 } =
      .next { start with pc := 0x1000, fault := some ⟨.memBounds, 0x1000, none, 0x1000⟩ } := ⟨rfl, rfl⟩

/-- Section 2.7: an illegal word is recorded. -/
theorem test_unknown_opcode :
    steps 0x8AB8 start (fun t => t.fault == some ⟨.unknownOpcode, 0x200, some 0x8AB8, 0⟩) = true := by decide

/-- Vectors D6 and D9's neighbour: Dxy0 reads no byte, and an I out of bounds is still a fault. -/
theorem test_drw_zero_rows_out_of_bounds :
    steps 0xD010 { start with i := 0x1000 }
      (fun t => t.fault == some ⟨.memBounds, 0x200, some 0xD010, 0x1000⟩) = true := by decide

/-! Host operations. -/

/-- Vectors H1 to H3: a tick floors at 0. -/
theorem test_timer_tick :
    { start with dt := 1, st := 2 }.timerTick = { start with dt := 0, st := 1 } ∧
    start.timerTick = start ∧ ({ start with dt := 3, st := 1 }.timerTick).soundOn = false := by decide

/-- Vectors H4 and H5: a key code above 15 is ignored. -/
theorem test_set_key :
    (start.setKey 4 true).isPressed 4 = true ∧ start.setKey 16 true = start ∧ start.isPressed 16 = false := by decide

/-- Vector S14: LOAD copies to 0x200 and leaves pc. -/
theorem test_load :
    (start.load [0x00, 0xE0, 0x60, 0x05]).1 = .ok ∧ (start.load [0x00, 0xE0, 0x60, 0x05]).2.pc = 0x200 ∧
    (start.load [0x00, 0xE0, 0x60, 0x05]).2.mem = [(0x201, 0xE0), (0x202, 0x60), (0x203, 0x05)] := by decide

/-- Vectors S5 and H7: 3585 bytes are one too many. -/
theorem test_load_capacity : start.load (List.replicate 3585 0xAB) = (.capacityError, start) := by
  rw [State.load, if_neg (by decide), if_pos (by rw [List.length_replicate]; decide)]

/-- Vectors H9 and H10: a fault is terminal until RESET. -/
theorem test_fault_is_terminal :
    stuck.load [0x12, 0x34] = (.faulted, stuck) ∧ step stuck = .next stuck ∧ stuck.setKey 4 true = stuck ∧
    stuck.hostReset = start := ⟨rfl, rfl, rfl, rfl⟩

/-- Vector H11: one lit pixel in row-major order. -/
theorem test_read_fb :
    { start with fb := start.fb.setPixel 1 3 true }.readFb[67]? = some true ∧
    { start with fb := start.fb.setPixel 1 3 true }.readFb[66]? = some false := by decide

/-- The status record after a fault (rule R38). -/
theorem test_read_status :
    stuck.readStatus = ⟨true, 2, 0x202, true, 0x2400, 0⟩ ∧ start.readStatus = ⟨false, 0, 0, false, 0, 0⟩ := by decide

/-- Rule R41: a tick requested with a STEP is performed first. -/
theorem test_tick_first :
    (match tickAndStep 0 ({ start with dt := 3 }.withFetchWord 16 0xF107) with
      | .next t => t.getV 1 == 2
      | _ => false) = true := by decide

/-- The free byte of Cxkk is masked, and its counter moves on (rule R194, log entry 2). -/
theorem test_rnd_counter : steps 0xC300 start (fun t => t.draws == 1) = true := by decide

/-- Rule R70: the default font at reset, glyph 0 and glyph F, and 0 above it. -/
theorem test_reset_memory :
    start.mem = [] ∧ start.mem.get 0 = 0xF0 ∧ start.mem.get 1 = 0x90 ∧ start.mem.get 0x4F = 0x80 ∧
    start.mem.get 0x50 = 0 := by decide

/-- Writing the byte an unlisted address reads as removes the entry. -/
theorem test_memory_canonical :
    Memory.set [(0x300, 7)] 0x300 0 = [] ∧ Memory.set [(0x300, 7)] 0x200 1 = [(0x200, 1), (0x300, 7)] ∧
    Memory.wf [(0x300, 7), (0x200, 1)] = false ∧ Memory.wf [(0x300, 0)] = false ∧
    Memory.wf [(0x1000, 1)] = false := by decide

/-! Witnesses: a state and operands that meet the hypotheses of each statement that has any, one for each clause. -/

theorem witness_EncodeOfDecode : decodeWord 0xDABC = .ok (.drw 0xA 0xB 0xC) := by decide

theorem witness_DecodeSelectsOpcodeMapRow :
    (⟨0x5000, 0xF00F⟩ : Pattern) ∈ opcodeMap ∧ Pattern.accepts ⟨0x5000, 0xF00F⟩ 0x5AB0 = true ∧
    (∀ p ∈ opcodeMap, p.accepts 0x5AB1 = false) := by decide

/-- One illegal word of each clause, and a word that no clause takes in. -/
theorem witness_IllegalWordsByFamily :
    (fieldOp 0x0FFF = 0x0 ∧ (0x0FFF : Word) ≠ 0x00E0 ∧ (0x0FFF : Word) ≠ 0x00EE) ∧
    (fieldOp 0x9001 = 0x9 ∧ fieldN 0x9001 ≠ 0) ∧
    (fieldOp 0x8ABD = 0x8 ∧ fieldN 0x8ABD ∈ [0x8, 0x9, 0xA, 0xB, 0xC, 0xD, 0xF]) ∧
    (fieldOp 0xE19F = 0xE ∧ fieldKK 0xE19F ∉ [0x9E, 0xA1]) ∧
    (fieldOp 0xF030 = 0xF ∧ fieldKK 0xF030 ∉ [0x07, 0x0A, 0x15, 0x18, 0x1E, 0x29, 0x33, 0x55, 0x65]) ∧
    ¬ ((fieldOp 0x8ABE = 0x0 ∧ (0x8ABE : Word) ≠ 0x00E0 ∧ (0x8ABE : Word) ≠ 0x00EE) ∨
      ((fieldOp 0x8ABE = 0x5 ∨ fieldOp 0x8ABE = 0x9) ∧ fieldN 0x8ABE ≠ 0) ∨
      (fieldOp 0x8ABE = 0x8 ∧ fieldN 0x8ABE ∈ [0x8, 0x9, 0xA, 0xB, 0xC, 0xD, 0xF]) ∨
      (fieldOp 0x8ABE = 0xE ∧ fieldKK 0x8ABE ∉ [0x9E, 0xA1]) ∨
      (fieldOp 0x8ABE = 0xF ∧ fieldKK 0x8ABE ∉ [0x07, 0x0A, 0x15, 0x18, 0x1E, 0x29, 0x33, 0x55, 0x65])) := by decide

theorem witness_OpcodeMapUnambiguous :
    (⟨0xF065, 0xF0FF⟩ : Pattern) ∈ opcodeMap ∧ Pattern.accepts ⟨0xF065, 0xF0FF⟩ 0xFF65 = true := by decide

theorem witness_StepRunsDecodedInstr : ∀ s ∈ [start.placeWord 0xF265, { start with pc := 0xFFE }.placeWord 0xF265],
    s.fault = none ∧ s.pc.toNat ≤ 0xFFE ∧ Instr.wellFormed (.ldRegs 2) = true ∧
    decodeWord (wordOfBytes (s.mem.get s.pc.toNat) (s.mem.get (s.pc.toNat + 1))) = .ok (.ldRegs 2) := by decide

/-- A word that is no Cxkk; and a Cxkk that a STEP at 0xFFF cannot fetch. -/
theorem witness_RndReadByCxkkOnly :
    (∀ x kk, Instr.cls ≠ .rndByte x kk) ∧
    (∀ x kk, decodeWord (start.placeWord 0x00E0).wordAtPc ≠ .ok (.rndByte x kk)) ∧
    (let s := bytes 0xFFF [0xC3] { start with pc := 0xFFF }
     decodeWord s.wordAtPc = .ok (.rndByte 3 0) ∧ ¬ s.pc.toNat ≤ 0xFFE) := by
  have h : decodeWord (start.placeWord 0x00E0).wordAtPc = .ok .cls := by decide
  rw [h]
  refine ⟨?_, ?_, by decide⟩
  · intro x kk h
    cases h
  · intro x kk h
    cases h

theorem witness_FaultEntryRecord :
    ∃ t, stepWith 0 (start.placeWord 0x00EE) = .next t ∧ t.fault = some ⟨.stackUnderflow, 0x200, some 0x00EE, 0⟩ :=
  ⟨{ start.placeWord 0x00EE with fault := some ⟨.stackUnderflow, 0x200, some 0x00EE, 0⟩ }, rfl, rfl⟩

theorem witness_FaultEntryRecord_fetch :
    stepWith 0 { start with pc := 0xFFF } =
      .next { start with pc := 0xFFF, fault := some ⟨.memBounds, 0xFFF, none, 0x1000⟩ } := by rfl

theorem witness_CauseByOperation :
    execWith 0 .ret start = .next { start with fault := some ⟨.stackUnderflow, 0x200, some 0x00EE, 0⟩ } ∧
    0xFFF ≤ { start with pc := 0xFFF }.pc.toNat ∧
    (start.fault = none ∧ start.pc.toNat ≤ 0xFFE ∧ decodeWord start.wordAtPc = .error (.unknownOpcode 0)) ∧
    hostStep (.setKey 15 true) start = .next (.done, pressed 15 start) :=
  ⟨rfl, by decide, ⟨rfl, by decide, by decide⟩, rfl⟩

theorem witness_StepFaultsExactlyOnBrokenCondition :
    ({ start with pc := 0xFFE }.placeWord 0x00E0).StepSafe ∧ ¬ ({ start with pc := 0xFFF }).StepSafe ∧
    ¬ (start.placeWord 0x00EE).StepSafe := by
  refine ⟨⟨by decide, .cls, by decide, trivial⟩, fun h => absurd h.1 (by decide), fun ⟨_, i, hd, hr⟩ => ?_⟩
  have h : decodeWord (start.placeWord 0x00EE).wordAtPc = .ok .ret := by decide
  rw [h] at hd
  cases hd
  exact absurd (show 0 < start.sp.val from hr) (by decide)

theorem witness_FaultStateIsTerminal : stuck.fault = some ⟨.stackOverflow, 0x202, some 0x2400, 0⟩ := by decide

theorem witness_StepKeepsInvariant : (start.placeWord 0x2FFE).Inv ∧
    step (start.placeWord 0x2FFE) =
      .next { start.placeWord 0x2FFE with pc := 0xFFE, sp := 1, stack := start.stack.set 0 0x202 } :=
  ⟨⟨by decide, by decide, by decide, fun _ h => nomatch h⟩, rfl⟩

theorem witness_StepKeepsInvariant_top : { start with pc := 0x10FE }.Inv ∧
    step { start with pc := 0x10FE } =
      .next { start with pc := 0x10FE, fault := some ⟨.memBounds, 0x10FE, none, 0x10FE⟩ } :=
  ⟨⟨by decide, by decide, by decide, fun _ h => nomatch h⟩, rfl⟩

theorem witness_HostOperationsKeepInvariant : start.Inv ∧
    hostStep (.load [0x12]) start = .next (.loaded .ok, bytes 0x200 [0x12] start) :=
  ⟨⟨by decide, by decide, by decide, fun _ h => nomatch h⟩, rfl⟩

theorem witness_ResetState : hostStep .reset stuck = .next (.done, start) :=
  congrArg (fun t => Host.Outcome.next (HostReply.done, t)) (show stuck.hostReset = start by decide)

theorem witness_ConfigurationNeverChanges :
    hostStep .timerTick { start with dt := 1 } = .next (.done, start) :=
  congrArg (fun t => Host.Outcome.next (HostReply.done, t)) (show { start with dt := 1 }.timerTick = start by decide)

theorem witness_BootRunsFirstRomWord : (List.replicate 3582 (0xAB : Byte)).length ≤ 3582 :=
  Nat.le_of_eq List.length_replicate

theorem witness_MemoryReadAfterWrite : 4095 < 4096 ∧ 4096 ≤ 4096 := by decide

theorem witness_SpritePixelsAndCollision : (List.replicate 15 (0xFF : Byte)).length ≤ 15 := by decide

theorem witness_DrawTwiceRestores :
    (List.replicate 15 (0xFF : Byte)).length ≤ 15 ∧ ∀ r c, start.fb.pixel r c = false :=
  ⟨by decide, fun r c => by simp [start, State.reset, State.resetWith, Framebuffer.pixel]⟩

/-- I + n at 4096 exactly, n = 0 at the last address; one byte too far, and n = 0 at 4096. -/
theorem witness_DrwDrawsAndSetsFlag :
    ((0xFFF : Word).toNat < 4096 ∧ (0xFFF : Word).toNat + (1 : Nibble).toNat ≤ 4096) ∧
    ((0xFFF : Word).toNat < 4096 ∧ (0xFFF : Word).toNat + (0 : Nibble).toNat ≤ 4096) ∧
    ¬ ((0xFFF : Word).toNat < 4096 ∧ (0xFFF : Word).toNat + (2 : Nibble).toNat ≤ 4096) ∧
    ¬ ((0x1000 : Word).toNat < 4096 ∧ (0x1000 : Word).toNat + (0 : Nibble).toNat ≤ 4096) := by decide

theorem witness_RetPopsReturnAddress : 0 < { start with sp := 1 }.sp.val ∧ start.sp.val = 0 := by decide

theorem witness_CallPushesReturnAddress :
    { start with sp := 15 }.sp.val < 16 ∧ { start with sp := 16 }.sp.val = 16 := by decide

theorem witness_ReturnUndoesCall : { start with sp := 15 }.sp.val < 16 := by decide

theorem witness_DeadStackEntriesUnobservable :
    let s' := { start with sp := 1, stack := start.stack.set 15 7 }
    s' = { ({ start with sp := 1 } : State) with stack := s'.stack } ∧
      ∀ k : Fin 16, k.val < 1 → s'.stack[k.val] = start.stack[k.val] := by decide

theorem witness_KeySkips : ((start.setV 3 15).getV 3).toNat < 16 ∧ 16 ≤ ((start.setV 3 16).getV 3).toNat := by decide

theorem witness_AddImmediateWritesNoFlag : (0 : Nibble) ≠ 0xF := by decide

theorem witness_AddRegistersSetsCarry : (1 : Nibble) ≠ 0xF ∧ (2 : Nibble) ≠ 1 ∧ (2 : Nibble) ≠ 0xF := by decide

theorem witness_SubtractSetsNotBorrow : (0xE : Nibble) ≠ 0xF ∧ (0 : Nibble) ≠ 0xE ∧ (0 : Nibble) ≠ 0xF := by decide

theorem witness_ShiftsSetShiftedOutBit : (0 : Nibble) ≠ 0xF ∧ (0xE : Nibble) ≠ 0 ∧ (0xE : Nibble) ≠ 0xF := by decide

theorem witness_FontPointerOrFault :
    ((start.setV 7 15).getV 7).toNat ≤ 15 ∧ 15 < ((start.setV 7 16).getV 7).toNat := by decide

theorem witness_BcdStoresDigits : (0xFFD : Word).toNat + 2 < 4096 ∧ 4096 ≤ (0xFFE : Word).toNat + 2 := by decide

theorem witness_StoreRegistersThroughI :
    (0xFFF : Word).toNat + (0 : Nibble).toNat < 4096 ∧ 4096 ≤ (0xFFF : Word).toNat + (1 : Nibble).toNat := by decide

theorem witness_LoadRegistersThroughI :
    (0xFF0 : Word).toNat + (15 : Nibble).toNat < 4096 ∧ 4096 ≤ (0xFF1 : Word).toNat + (15 : Nibble).toNat := by decide

theorem witness_LoadAfterStoreRestoresRegisters : (0xFF0 : Word).toNat + (15 : Nibble).toNat < 4096 := by decide

theorem witness_KeyWaitPollsLowestKey :
    ((pressed 15 start).keys[15] = true ∧ ∀ j : Fin 16, j.val < 15 → (pressed 15 start).keys[j.val] = false) ∧
    ∀ k : Fin 16, start.keys[k.val] = false := by decide

theorem witness_LoadCopiesRom :
    stuck.fault ≠ none ∧ start.fault = none ∧ 4096 < 0x200 + (List.replicate 3585 (0 : Byte)).length ∧
    0x200 + (List.replicate 3584 (0 : Byte)).length ≤ 4096 := by
  rw [List.length_replicate, List.length_replicate]
  decide

theorem witness_TimerTickFloorsAtZero : start.fault = none ∧ stuck.fault ≠ none := by decide

/-- A tick, a RESET of a faulted block, a STEP while FAULTED = 1, and an Fx15. -/
theorem witness_DelayTimerNeverRises :
    (hostStep .timerTick { start with dt := 1 } = .next (.done, start) ∧ start.fault = none) ∧
    hostStep .reset stuck = .next (.done, start) ∧
    (hostStep (.step 0) stuck = .next (.stepped stuck.fault, stuck) ∧ stuck.fault ≠ none) ∧
    hostStep (.step 0) ((start.setV 1 5).placeWord 0xF115) =
      .next (.stepped none, { (start.setV 1 5).placeWord 0xF115 with dt := 5, pc := 0x202 }) :=
  ⟨⟨witness_ConfigurationNeverChanges, by decide⟩, witness_ResetState, ⟨rfl, by decide⟩, rfl⟩

theorem witness_SetKeyWritesLatch :
    start.fault = none ∧ (stuck.fault ≠ none ∨ 15 < 0) ∧ (start.fault ≠ none ∨ 15 < 16) ∧
    (pressed 3 start).pressedKey = some 3 ∧ HostOp.timerTick ≠ .reset ∧
    (∀ code pressed, HostOp.timerTick ≠ .setKey code pressed) ∧ hostStep .timerTick start = .next (.done, start) :=
  ⟨by decide, by decide, by decide, by decide, by decide, fun _ _ h => (by cases h), rfl⟩

theorem witness_ReadStatusShowsRecord :
    start.fault = none ∧ stuck.fault = some ⟨.stackOverflow, 0x202, some 0x2400, 0⟩ := by decide

theorem witness_IdleStateIsFixed : ∀ s ∈ [start.placeWord 0x1200, { start with pc := 0xFFE }.placeWord 0x1FFE],
    s.fault = none ∧ s.pc.toNat ≤ 0xFFE ∧ s.wordAtPc = 0x1000 ||| s.pc := by decide

theorem witness_OnlyNamedInstrsWriteState :
    start.fault = none ∧ exec (.ldI 0x2F0) start = .next { start with i := 0x2F0, pc := 0x202 } := ⟨rfl, rfl⟩

theorem witness_NextPcByInstruction :
    (start.fault = none ∧ exec (.jp 0xFFF) start = .next { start with pc := 0xFFF }) ∧
    exec .ret start = .next { start with fault := some ⟨.stackUnderflow, 0x200, some 0x00EE, 0⟩ } :=
  ⟨⟨rfl, rfl⟩, rfl⟩

theorem witness_RegisterWritesByInstruction :
    start.fault = none ∧ exec (.drw 0 1 0) start = .next { start with pc := 0x202 } ∧
    writesReg start.cfg (.drw 0 1 0) 0 = false := ⟨rfl, rfl, rfl⟩

theorem witness_RegisterReadsByInstruction :
    let s' := start.setV 0xE 9
    s' = { start with v := s'.v } ∧
      ∀ r, readsReg start.cfg (.addReg 1 2) r = true → s'.getV r = start.getV r := by decide

theorem witness_WithFetchWordRunsWord : decodeTableWord 16 0x1234 = some (.jp 0x234) := by decide

end Sys2Proof.Tests
end

/-! # The state an instruction leaves

`exec` always answers a next state. `State.afterExec` names that state, the equations below say what it is where the
instruction raises no fault (`State.RunsInstr`), and `State.afterExec_of_not_runsInstr` says once what a
fault leaves. -/

namespace Sys2Proof.Machine

/-- The state the execute part of an instruction leaves. -/
def State.afterExec (s : State) (i : Instr) : State :=
  match exec i s with
  | .next t => t
  | .fault _ => s
  | .refused _ => s

/-- A next state of `exec` is `afterExec`. -/
theorem State.afterExec_eq {i : Instr} {s t : State} (h : exec i s = .next t) : s.afterExec i = t := by
  simp only [State.afterExec, h]

/-- `exec` answers a next state for every instruction: no fault of the model, no refusal. -/
theorem exec_eq_next_afterExec (i : Instr) (s : State) : exec i s = .next (s.afterExec i) := by
  suffices h : ∃ t, exec i s = .next t by
    obtain ⟨t, ht⟩ := h
    rw [ht, State.afterExec_eq ht]
  cases i with
  | ret => simp only [exec, execRet]; split <;> exact ⟨_, rfl⟩
  | call nnn => simp only [exec, execCall]; split <;> exact ⟨_, rfl⟩
  | drw x y n => simp only [exec, execDrw]; split <;> exact ⟨_, rfl⟩
  | ldVxK x => simp only [exec, execLdVxK]; split <;> exact ⟨_, rfl⟩
  | ldFVx x => simp only [exec, execLdFVx]; split <;> exact ⟨_, rfl⟩
  | _ => exact ⟨_, rfl⟩

/-! ## The instructions that raise no fault in any state

The equations that later proofs rewrite with; those of the other instructions hold by `rfl` and are used so. -/

section NeverFault
variable (s : State) (x y : Nibble) (kk : Byte)

theorem State.afterExec_seByte : s.afterExec (.seByte x kk) = s.skipIf (s.getV x == kk) := rfl
theorem State.afterExec_sneByte : s.afterExec (.sneByte x kk) = s.skipIf (s.getV x != kk) := rfl
theorem State.afterExec_seReg : s.afterExec (.seReg x y) = s.skipIf (s.getV x == s.getV y) := rfl
theorem State.afterExec_sneReg : s.afterExec (.sneReg x y) = s.skipIf (s.getV x != s.getV y) := rfl
theorem State.afterExec_orReg :
    s.afterExec (.orReg x y) = (s.resultThenVfReset x (s.getV x ||| s.getV y)).advance := rfl
theorem State.afterExec_andReg :
    s.afterExec (.andReg x y) = (s.resultThenVfReset x (s.getV x &&& s.getV y)).advance := rfl
theorem State.afterExec_xorReg :
    s.afterExec (.xorReg x y) = (s.resultThenVfReset x (s.getV x ^^^ s.getV y)).advance := rfl
theorem State.afterExec_sknp : s.afterExec (.sknp x) = s.skipIf (!s.isPressed (s.getV x).toNat) := rfl
theorem State.afterExec_ldDtVx : s.afterExec (.ldDtVx x) = { s with dt := s.getV x }.advance := rfl
theorem State.afterExec_ldStVx : s.afterExec (.ldStVx x) = { s with st := s.getV x }.advance := rfl

/-- Fx0A with a key pressed. -/
theorem State.afterExec_ldVxK_of_some {k : Nat} (h : s.pressedKey = some k) :
    s.afterExec (.ldVxK x) = (s.setV x (BitVec.ofNat 8 k)).advance := by
  simp only [State.afterExec, exec, execLdVxK, h]

/-- Fx0A with no key pressed. -/
theorem State.afterExec_ldVxK_of_none (h : s.pressedKey = none) : s.afterExec (.ldVxK x) = s := by
  simp only [State.afterExec, exec, execLdVxK, h]

/-- Vx with the optional reset of VF changes the register file alone. -/
theorem State.resultThenVfReset_frame (r : Byte) :
    s.resultThenVfReset x r = { s with v := (s.resultThenVfReset x r).v } := by
  unfold State.resultThenVfReset; split <;> rfl

end NeverFault

/-! ## The instructions that can raise a fault, where they raise none -/

section MayFault
variable {s : State} {x y n : Nibble} {nnn : Addr12}

theorem State.afterExec_ret (h : 0 < s.sp.val) :
    s.afterExec .ret =
      { s with sp := ⟨s.sp.val - 1, by omega⟩, pc := s.stack[s.sp.val - 1]'(by omega) } := by
  simp only [State.afterExec, exec, execRet, State.pop_of_pos s h]
  rfl

theorem State.afterExec_call (h : s.sp.val < 16) :
    s.afterExec (.call nnn) =
      { s with
        stack := s.stack.set s.sp.val (s.pc + 2) h, sp := ⟨s.sp.val + 1, by omega⟩, pc := addrOperand nnn } := by
  simp only [State.afterExec, exec, execCall, State.push_of_lt s _ h]
  rfl

/-- The bytes of the sprite of a Dxyn that raises no fault. -/
def State.sprite (s : State) (n : Nibble) : List Byte :=
  (List.range n.toNat).map fun j => s.mem.get (s.i.toNat + j)

/-- The framebuffer after a Dxyn that raises no fault, and its collision flag. -/
def State.drawn (s : State) (x y n : Nibble) : Framebuffer × Bool :=
  drawSprite s.fb (s.getV x) (s.getV y) (s.sprite n)

theorem State.afterExec_drw (h : s.RunsInstr (.drw x y n)) :
    s.afterExec (.drw x y n) = ({ s with fb := (s.drawn x y n).1 }.setFlag (s.drawn x y n).2).advance := by
  have h' : s.i.toNat < 4096 ∧ s.i.toNat + n.toNat ≤ 4096 := h
  simp only [State.afterExec, exec, execDrw, State.spriteBytes_eq, if_pos h']
  rfl

theorem State.afterExec_ldFVx (h : (s.getV x).toNat ≤ 0xF) :
    s.afterExec (.ldFVx x) = (s.setI (BitVec.ofNat 16 (5 * (s.getV x).toNat))).advance := by
  simp only [State.afterExec, exec, execLdFVx, fontAddr, if_neg (Nat.not_lt.2 h)]

theorem State.afterExec_ldBVx (h : s.i.toNat + 2 < 4096) :
    s.afterExec (.ldBVx x) = { s with mem := s.mem.setList s.i.toNat (bcdDigits (s.getV x)) }.advance :=
  State.storeThen_of_le s _ _ _ h

theorem State.afterExec_stRegs_eq_storeThen :
    s.afterExec (.stRegs x) =
      s.storeThen (encode (.stRegs x)) (s.regsUpTo x) fun t => (t.indexInc s.i.toNat x).advance := rfl

theorem State.afterExec_ldRegs_eq_loadThen :
    s.afterExec (.ldRegs x) =
      s.loadThen (encode (.ldRegs x)) x fun t => (t.indexInc s.i.toNat x).advance := rfl

theorem State.length_regsUpTo : (s.regsUpTo x).length = x.toNat + 1 := by
  simp [State.regsUpTo]

/-- The index update of Fx55 and Fx65 writes I alone, and what it writes depends on the configuration and I alone. -/
theorem State.indexInc_eq_setI {s t : State} (a : Nat) (x : Nibble) (hcfg : t.cfg = s.cfg) (hi : t.i = s.i) :
    t.indexInc a x = t.setI (s.indexInc a x).i := by
  simp only [State.indexInc, hcfg]
  split
  · rw [← hi]; rfl
  · rfl
  · rfl

theorem State.afterExec_stRegs (h : s.i.toNat + x.toNat < 4096) :
    s.afterExec (.stRegs x) =
      ({ s with mem := s.mem.setList s.i.toNat (s.regsUpTo x) }.setI (s.indexInc s.i.toNat x).i).advance := by
  have hlen : s.i.toNat + (s.regsUpTo x).length ≤ 4096 := by rw [State.length_regsUpTo]; omega
  rw [State.afterExec_stRegs_eq_storeThen, State.storeThen_of_le s _ _ _ hlen]
  exact congrArg State.advance (State.indexInc_eq_setI _ x rfl rfl)

/-- The bytes an Fx65 that raises no fault loads. -/
def State.loadBytes (s : State) (x : Nibble) : List Byte :=
  (List.range (x.toNat + 1)).map fun j => s.mem.get (s.i.toNat + j)

theorem State.length_loadBytes : (s.loadBytes x).length = x.toNat + 1 := by
  simp [State.loadBytes]

theorem State.afterExec_ldRegs (h : s.i.toNat + x.toNat < 4096) :
    s.afterExec (.ldRegs x) =
      ((s.setRegs 0 (s.loadBytes x)).setI (s.indexInc s.i.toNat x).i).advance := by
  rw [State.afterExec_ldRegs_eq_loadThen, State.loadThen_of_le s _ x _ h]
  refine congrArg State.advance (State.indexInc_eq_setI (s := s) _ x ?_ ?_) <;> rw [State.setRegs_frame]

end MayFault

/-! ## The instructions that raise a fault -/

/-- The fault record of an instruction whose execute part raises a fault (60_exceptions.md rule R274): its one cause,
its pc and word, and for MEM_BOUNDS the first address out of bounds. -/
def State.execFault (s : State) (i : Instr) : Option FaultRecord :=
  (canRaise i).map fun c =>
    { cause := c, pc := s.pc, word := some (encode i),
      addr := BitVec.ofNat 17 (if c = .memBounds then max s.i.toNat 4096 else 0) }

/-- A fault writes the record; beside it at most registers, memory and the counter of free values change (log entry 3),
and memory keeps its canonical form. -/
theorem State.afterExec_of_not_runsInstr {s : State} {i : Instr} (h : ¬ s.RunsInstr i) :
    ∃ v mem draws, (s.mem.wf = true → Memory.wf mem = true) ∧
      s.afterExec i = { s with v := v, mem := mem, draws := draws, fault := s.execFault i } := by
  cases i with
  | ret =>
    refine ⟨s.v, s.mem, s.draws, id, ?_⟩
    simp only [State.afterExec, exec, execRet, State.pop_of_empty s h]
    rfl
  | call nnn =>
    refine ⟨s.v, s.mem, s.draws, id, ?_⟩
    simp only [State.afterExec, exec, execCall, State.push_of_full s _ h]
    rfl
  | drw x y n =>
    refine ⟨s.v, s.mem, s.draws, id, ?_⟩
    have h' : ¬ (s.i.toNat < 4096 ∧ s.i.toNat + n.toNat ≤ 4096) := h
    simp only [State.afterExec, exec, execDrw, State.spriteBytes_eq, if_neg h']
    rfl
  | ldFVx x =>
    refine ⟨s.v, s.mem, s.draws, id, ?_⟩
    have h' : ¬ (s.getV x).toNat ≤ 0xF := h
    simp only [State.afterExec, exec, execLdFVx, fontAddr, if_pos (Nat.lt_of_not_le h')]
    rfl
  | ldBVx x =>
    have hlen : 4096 < s.i.toNat + (bcdDigits (s.getV x)).length := Nat.lt_of_not_le h
    exact ⟨_, _, _, writeLanded_wf _ _ _ _, State.storeThen_of_gt s _ _ _ (List.cons_ne_nil _ _) hlen⟩
  | stRegs x =>
    have h' : ¬ s.i.toNat + x.toNat < 4096 := h
    have hlen : 4096 < s.i.toNat + (s.regsUpTo x).length := by rw [State.length_regsUpTo]; omega
    have hne : s.regsUpTo x ≠ [] := List.ne_nil_of_length_pos (by rw [State.length_regsUpTo]; omega)
    rw [State.afterExec_stRegs_eq_storeThen, State.storeThen_of_gt s _ _ _ hne hlen]
    exact ⟨_, _, _, writeLanded_wf _ _ _ _, rfl⟩
  | ldRegs x =>
    rw [State.afterExec_ldRegs_eq_loadThen, State.loadThen_of_ge s _ x _ (Nat.le_of_not_lt h), State.loadLanded_frame]
    exact ⟨_, _, _, id, rfl⟩
  | _ => exact absurd True.intro h

/-- An instruction that raises a fault leaves its record, with pc, the stack and SP as they were. -/
theorem State.afterExec_fault_of_not_runsInstr {s : State} {i : Instr} (h : ¬ s.RunsInstr i) :
    (s.afterExec i).fault = s.execFault i := by
  obtain ⟨v, mem, draws, -, he⟩ := State.afterExec_of_not_runsInstr h
  rw [he]

/-- An instruction that can raise no fault runs in every state. -/
theorem State.runsInstr_of_canRaise_eq_none {i : Instr} (s : State) (h : canRaise i = none) : s.RunsInstr i := by
  cases i with
  | ret | call | drw | ldFVx | ldBVx | stRegs | ldRegs => cases h
  | _ => exact True.intro

/-- An instruction that raises a fault leaves FAULTED = 1. -/
theorem State.execFault_ne_none {s : State} {i : Instr} (h : ¬ s.RunsInstr i) : s.execFault i ≠ none := fun hn =>
  h (s.runsInstr_of_canRaise_eq_none (Option.map_eq_none_iff.1 hn))

/-- Two runs that raise a fault leave the same record where the states agree on what it names. -/
theorem State.afterExec_fault_congr {s s' : State} {i : Instr} (h : ¬ s.RunsInstr i) (h' : ¬ s'.RunsInstr i)
    (heq : s'.execFault i = s.execFault i) :
    (s'.afterExec i).fault = (s.afterExec i).fault ∧ (s.afterExec i).fault ≠ none := by
  rw [State.afterExec_fault_of_not_runsInstr h, State.afterExec_fault_of_not_runsInstr h']
  exact ⟨heq, State.execFault_ne_none h⟩

/-- No fault recorded after an instruction: it raised none. -/
theorem State.runsInstr_of_afterExec_fault {s : State} {i : Instr} (h : (s.afterExec i).fault = none) :
    s.RunsInstr i := by
  by_contra hr
  exact State.execFault_ne_none hr (State.afterExec_fault_of_not_runsInstr hr ▸ h)

end Sys2Proof.Machine

/-! # What an instruction that raises no fault writes -/

namespace Sys2Proof.Machine

/-- The pieces of state an instruction that raises no fault can write, by kind of instruction (10_state.md rules R24,
R31 to R34, R37, 20_memory.md rule R66). Values no invariant depends on stay arbitrary. -/
inductive State.Effect (s : State) : Instr → State → Prop where
  /-- Every other instruction writes registers and pc alone. -/
  | regs {i : Instr} (v : Vector Byte 16) (pc : Word) : Effect s i { s with v := v, pc := pc }
  | cls : Effect s .cls { s with fb := Framebuffer.clear, pc := s.pc + 2 }
  | drw (x y n : Nibble) (fb : Framebuffer) (v : Vector Byte 16) :
      Effect s (.drw x y n) { s with fb := fb, v := v, pc := s.pc + 2 }
  | ret (h : 0 < s.sp.val) :
      Effect s .ret { s with sp := ⟨s.sp.val - 1, by omega⟩, pc := s.stack[s.sp.val - 1]'(by omega) }
  | call (nnn : Addr12) (h : s.sp.val < 16) :
      Effect s (.call nnn)
        { s with
          stack := s.stack.set s.sp.val (s.pc + 2) h, sp := ⟨s.sp.val + 1, by omega⟩, pc := addrOperand nnn }
  | index {i : Instr} (a : Word) (hi : (∃ nnn, i = .ldI nnn) ∨ ∃ x, i = .addIVx x ∨ i = .ldFVx x) :
      Effect s i { s with i := a, pc := s.pc + 2 }
  | delay (x : Nibble) : Effect s (.ldDtVx x) { s with dt := s.getV x, pc := s.pc + 2 }
  | sound (x : Nibble) : Effect s (.ldStVx x) { s with st := s.getV x, pc := s.pc + 2 }
  | random (x : Nibble) (kk : Byte) (v : Vector Byte 16) :
      Effect s (.rndByte x kk) { s with v := v, draws := s.draws + 1, pc := s.pc + 2 }
  | bcd (x : Nibble) (mem : Memory) (hm : s.mem.wf = true → mem.wf = true) :
      Effect s (.ldBVx x) { s with mem := mem, pc := s.pc + 2 }
  | store (x : Nibble) (mem : Memory) (hm : s.mem.wf = true → mem.wf = true) (a : Word)
      (ha : s.cfg.quirkIndexInc = .none → a = s.i) :
      Effect s (.stRegs x) { s with mem := mem, i := a, pc := s.pc + 2 }
  | load (x : Nibble) (v : Vector Byte 16) (a : Word) (ha : s.cfg.quirkIndexInc = .none → a = s.i) :
      Effect s (.ldRegs x) { s with v := v, i := a, pc := s.pc + 2 }

/-- Without QUIRK_INDEX_INC the index update keeps I. -/
theorem State.indexInc_i_of_none {s : State} (a : Nat) (x : Nibble) (h : s.cfg.quirkIndexInc = .none) :
    (s.indexInc a x).i = s.i := by
  simp only [State.indexInc, h]

/-- An instruction that raises no fault writes only what its kind names. -/
theorem State.effect_afterExec {s : State} {i : Instr} (h : s.RunsInstr i) : s.Effect i (s.afterExec i) := by
  cases i with
  | cls => exact .cls
  | ret => rw [State.afterExec_ret h]; exact .ret h
  | call nnn => rw [State.afterExec_call h]; exact .call nnn h
  | drw x y n => rw [State.afterExec_drw h]; exact .drw x y n _ _
  | ldI nnn => exact .index _ (.inl ⟨nnn, rfl⟩)
  | addIVx x => exact .index _ (.inr ⟨x, .inl rfl⟩)
  | ldFVx x => rw [State.afterExec_ldFVx h]; exact .index _ (.inr ⟨x, .inr rfl⟩)
  | ldDtVx x => exact .delay x
  | ldStVx x => exact .sound x
  | rndByte x kk => exact .random x kk _
  | ldBVx x =>
    rw [State.afterExec_ldBVx h]
    exact .bcd x _ (Memory.wf_setList _ _ _ h)
  | stRegs x =>
    have hlen : s.i.toNat + (s.regsUpTo x).length ≤ 4096 := by rw [State.length_regsUpTo]; exact h
    rw [State.afterExec_stRegs h]
    exact .store x _ (Memory.wf_setList _ _ _ hlen) _ (State.indexInc_i_of_none _ x)
  | ldRegs x =>
    rw [State.afterExec_ldRegs h, State.setRegs_frame]
    exact .load x _ _ (State.indexInc_i_of_none _ x)
  | ldVxK x =>
    cases hk : s.pressedKey with
    | none => rw [State.afterExec_ldVxK_of_none s x hk]; exact .regs s.v s.pc
    | some k => rw [State.afterExec_ldVxK_of_some s x hk]; exact .regs _ _
  | orReg x y => rw [State.afterExec_orReg, State.resultThenVfReset_frame]; exact .regs _ _
  | andReg x y => rw [State.afterExec_andReg, State.resultThenVfReset_frame]; exact .regs _ _
  | xorReg x y => rw [State.afterExec_xorReg, State.resultThenVfReset_frame]; exact .regs _ _
  | _ => exact .regs _ _

/-- An instruction after which no fault is recorded raised none, and writes only what its kind names. -/
theorem State.effect_of_exec {s t : State} {i : Instr} (ht : exec i s = .next t) (htf : t.fault = none) :
    s.RunsInstr i ∧ s.Effect i t := by
  obtain rfl := State.afterExec_eq ht
  have h := State.runsInstr_of_afterExec_fault htf
  exact ⟨h, State.effect_afterExec h⟩

/-- Settles O55, kind by kind. -/
theorem onlyNamedInstrsWriteState : Obligations.OnlyNamedInstrsWriteState := by
  intro i s t _ ht htf
  obtain ⟨-, he⟩ := State.effect_of_exec ht htf
  cases he with
  | index a hi =>
    have hidx : a ≠ s.i → (∃ nnn, i = .ldI nnn) ∨ (∃ x, i = .addIVx x ∨ i = .ldFVx x) ∨
        (s.cfg.quirkIndexInc ≠ .none ∧ ∃ x, i = .stRegs x ∨ i = .ldRegs x) := fun _ => hi.imp_right .inl
    simpa using hidx
  | store x mem hm a ha | load x v a ha =>
    have hidx : a ≠ s.i → s.cfg.quirkIndexInc ≠ .none := fun hne hq => hne (ha hq)
    simpa using hidx
  | _ => simp

/-! ## pc -/

/-- nnn + V0 is below 65536: the addition of Bnnn does not wrap (42_flow.md rule R144). -/
theorem addrOperand_add_byteOperand (nnn : Addr12) (b : Byte) :
    addrOperand nnn + byteOperand b = BitVec.ofNat 16 (nnn.toNat + b.toNat) := by
  apply BitVec.eq_of_toNat_eq
  simp [addrOperand, byteOperand]

/-- Some key is pressed exactly when Fx0A finds one. -/
theorem State.exists_key_iff (s : State) : (∃ k : Fin 16, s.keys[k.val] = true) ↔ s.pressedKey ≠ none := by
  rw [Ne, State.pressedKey_none]
  push Not
  constructor
  · rintro ⟨k, hk⟩
    exact ⟨k.val, k.isLt, by simpa [State.isPressed_of_lt s k.val k.isLt] using hk⟩
  · rintro ⟨j, hj, hp⟩
    exact ⟨⟨j, hj⟩, by simpa [State.isPressed_of_lt s j hj] using hp⟩

/-- The pc an instruction that raises no fault leaves is the one rule R26 gives it. -/
theorem State.afterExec_pc {s : State} {i : Instr} (h : s.RunsInstr i) : (s.afterExec i).pc = s.nextPc i := by
  cases i with
  | ret =>
    have hsp : 0 < s.sp.val := h
    rw [State.afterExec_ret hsp, State.nextPc, dif_pos hsp]
  | call nnn => rw [State.afterExec_call h]; rfl
  | drw x y n => rw [State.afterExec_drw h]; rfl
  | ldFVx x => rw [State.afterExec_ldFVx h]; rfl
  | ldBVx x => rw [State.afterExec_ldBVx h]; rfl
  | stRegs x => rw [State.afterExec_stRegs h]; rfl
  | ldRegs x => rw [State.afterExec_ldRegs h, State.setRegs_frame]; rfl
  | jpV0 nnn => exact addrOperand_add_byteOperand nnn (s.getV 0)
  | seByte x kk => simp [State.afterExec_seByte, State.nextPc]
  | sneByte x kk => simp [State.afterExec_sneByte, State.nextPc]
  | seReg x y => simp [State.afterExec_seReg, State.nextPc]
  | sneReg x y => simp [State.afterExec_sneReg, State.nextPc]
  | sknp x => cases hp : s.isPressed (s.getV x).toNat <;> simp [State.afterExec_sknp, State.nextPc, hp]
  | ldVxK x =>
    simp only [State.nextPc, State.exists_key_iff]
    cases hk : s.pressedKey with
    | none => simp [State.afterExec_ldVxK_of_none s x hk]
    | some k => simp [State.afterExec_ldVxK_of_some s x hk]
  | orReg x y => rw [State.afterExec_orReg, State.resultThenVfReset_frame]; rfl
  | andReg x y => rw [State.afterExec_andReg, State.resultThenVfReset_frame]; rfl
  | xorReg x y => rw [State.afterExec_xorReg, State.resultThenVfReset_frame]; rfl
  | _ => rfl

/-- The fault record of an instruction names its own pc. -/
theorem State.pc_of_execFault {s : State} {i : Instr} {r : FaultRecord} (h : s.execFault i = some r) : r.pc = s.pc := by
  obtain ⟨c, -, rfl⟩ := Option.map_eq_some_iff.1 h
  rfl

/-- An instruction that raises no fault keeps the fault record. -/
theorem State.Effect.fault_eq {s t : State} {i : Instr} (h : s.Effect i t) : t.fault = s.fault := by
  cases h <;> rfl

/-- Settles O56: the table of rule R26 where no fault is raised, else the frame of a fault. -/
theorem nextPcByInstruction : Obligations.NextPcByInstruction := by
  intro i s t hs ht
  obtain rfl := State.afterExec_eq ht
  by_cases h : s.RunsInstr i
  · have hf : (s.afterExec i).fault = none := (State.effect_afterExec h).fault_eq.trans hs
    exact ⟨fun _ => State.afterExec_pc h, fun r hr => by simp [hf] at hr⟩
  · obtain ⟨v, mem, draws, -, he⟩ := State.afterExec_of_not_runsInstr h
    rw [he]
    exact ⟨fun hn => absurd hn (State.execFault_ne_none h), fun r hr => ⟨rfl, State.pc_of_execFault hr⟩⟩

end Sys2Proof.Machine

/-! # General registers: what an instruction writes, and what it reads -/

namespace Sys2Proof.Machine

/-! ## Reads of a register after the shared register writes -/

/-- A register is unchanged by the write of another one and the advance of pc. -/
theorem State.getV_setV_advance_of_ne {s : State} {x r : Nibble} {b : Byte} (h : (r == x) = false) :
    (s.setV x b).advance.getV r = s.getV r := by
  have hne : r ≠ x := by simpa using h
  exact (State.getV_setV s x r b).trans (if_neg hne)

/-- Result then flag: a register that is neither Vx nor VF is unchanged. -/
theorem State.getV_resultThenFlag_of_ne {s : State} {x r : Nibble} {b : Byte} {c : Bool}
    (h : (r == x || r == 0xF) = false) : (s.resultThenFlag x b c).advance.getV r = s.getV r := by
  obtain ⟨hx, hf⟩ := Bool.or_eq_false_iff.1 h
  exact (State.getV_setV_advance_of_ne hf).trans (State.getV_setV_advance_of_ne hx)

/-- Flag then result: a register that is neither Vx nor VF is unchanged. -/
theorem State.getV_flagThenResult_of_ne {s : State} {x r : Nibble} {b : Byte} {c : Bool}
    (h : (r == x || r == 0xF) = false) : (s.flagThenResult x c b).advance.getV r = s.getV r := by
  obtain ⟨hx, hf⟩ := Bool.or_eq_false_iff.1 h
  exact (State.getV_setV_advance_of_ne hx).trans (State.getV_setV_advance_of_ne hf)

/-- The bitwise operations: a register that is not Vx, and under QUIRK_VF_RESET not VF, is unchanged. -/
theorem State.getV_resultThenVfReset_of_ne {s : State} {x r : Nibble} {b : Byte}
    (h : (r == x || (s.cfg.quirkVfReset && r == 0xF)) = false) :
    (s.resultThenVfReset x b).advance.getV r = s.getV r := by
  obtain ⟨hx, hf⟩ := Bool.or_eq_false_iff.1 h
  unfold State.resultThenVfReset
  split
  · next hq =>
    rw [hq, Bool.true_and] at hf
    exact (State.getV_setV_advance_of_ne hf).trans (State.getV_setV_advance_of_ne hx)
  · exact State.getV_setV_advance_of_ne hx

/-- The loads of Fx65 leave the registers above Vx as they were. -/
theorem State.getV_setRegs_loadBytes_of_lt {s : State} {x r : Nibble} (h : x.toNat < r.toNat) :
    (s.setRegs 0 (s.loadBytes x)).getV r = s.getV r := by
  rw [State.getV_setRegs _ s 0 (by rw [State.length_loadBytes]; omega), dif_neg]
  rw [State.length_loadBytes]
  omega

/-- An instruction that raises no fault keeps every register that rule R23 does not list among its writes. -/
theorem State.getV_afterExec_of_not_writesReg {s : State} {i : Instr} {r : Nibble} (h : s.RunsInstr i)
    (hw : writesReg s.cfg i r = false) : (s.afterExec i).getV r = s.getV r := by
  cases i with
  | ldByte x _ | addByte x _ | ldReg x _ | rndByte x _ | ldVxDt x => exact State.getV_setV_advance_of_ne hw
  | ldVxK x =>
    cases hk : s.pressedKey with
    | none => rw [State.afterExec_ldVxK_of_none s x hk]
    | some k => rw [State.afterExec_ldVxK_of_some s x hk]; exact State.getV_setV_advance_of_ne hw
  | orReg x _ | andReg x _ | xorReg x _ => exact State.getV_resultThenVfReset_of_ne hw
  | addReg x _ => exact State.getV_resultThenFlag_of_ne hw
  | subReg x _ | shrReg x _ | subnReg x _ | shlReg x _ => exact State.getV_flagThenResult_of_ne hw
  | drw x y n => rw [State.afterExec_drw h]; exact State.getV_setV_advance_of_ne hw
  | ldRegs x =>
    rw [State.afterExec_ldRegs h]
    exact State.getV_setRegs_loadBytes_of_lt (Nat.lt_of_not_le (of_decide_eq_false hw))
  | ret => rw [State.afterExec_ret h]; rfl
  | call nnn => rw [State.afterExec_call h]; rfl
  | ldFVx x => rw [State.afterExec_ldFVx h]; rfl
  | ldBVx x => rw [State.afterExec_ldBVx h]; rfl
  | stRegs x => rw [State.afterExec_stRegs h]; rfl
  | _ => rfl

/-- Settles O57. -/
theorem registerWritesByInstruction : Obligations.RegisterWritesByInstruction := by
  intro i s t r _ ht htf hw
  obtain ⟨h, -⟩ := State.effect_of_exec ht htf
  rw [← State.afterExec_eq ht]
  exact State.getV_afterExec_of_not_writesReg h hw

/-! ## Two runs from states that differ in registers -/

/-- The second state differs from the first in general registers alone, and in none for which `P` holds. -/
structure State.AgreeOn (P : Nibble → Prop) (s s' : State) : Prop where
  frame : s' = { s with v := s'.v }
  regs : ∀ r, P r → s'.getV r = s.getV r

namespace State.AgreeOn
variable {P : Nibble → Prop} {s s' : State} {i : Instr}

/-- What does not look at the registers is equal in both states. -/
theorem congr {α : Type} (h : AgreeOn P s s') (f : State → α) (hf : ∀ w, f { s with v := w } = f s) : f s' = f s := by
  rw [h.frame, hf]

/-- An update that neither reads nor writes registers keeps the relation. -/
theorem map (h : AgreeOn P s s') (f : State → State) (hf : ∀ w, f { s with v := w } = { f s with v := w }) :
    AgreeOn P (f s) (f s') := by
  have hs : (f s).v = s.v := (congrArg State.v (hf s.v) :)
  have hs' : f s' = { f s with v := s'.v } := (congrArg f h.frame).trans (hf s'.v)
  refine ⟨by rw [hs'], fun r hr => ?_⟩
  calc (f s').getV r = s'.getV r := State.getV_congr (congrArg State.v hs') r
    _ = s.getV r := h.regs r hr
    _ = (f s).getV r := (State.getV_congr hs r).symm

/-- Equal values written to one register keep the relation. -/
theorem setV (h : AgreeOn P s s') (x : Nibble) {b b' : Byte} (hb : b' = b) :
    AgreeOn P (s.setV x b) (s'.setV x b') where
  frame := by
    conv_lhs => rw [h.frame]
    rfl
  regs r hr := by simp only [State.getV_setV, h.regs r hr, hb]

theorem setI (h : AgreeOn P s s') {a a' : Word} (ha : a' = a) : AgreeOn P (s.setI a) (s'.setI a') :=
  ha ▸ h.map (·.setI a') fun _ => rfl

theorem setPc (h : AgreeOn P s s') {a a' : Word} (ha : a' = a) : AgreeOn P (s.setPc a) (s'.setPc a') :=
  ha ▸ h.map (·.setPc a') fun _ => rfl

theorem advance (h : AgreeOn P s s') : AgreeOn P s.advance s'.advance :=
  h.setPc (congrArg (· + 2) (h.congr State.pc fun _ => rfl))

theorem skipIf (h : AgreeOn P s s') {c c' : Bool} (hc : c' = c) : AgreeOn P (s.skipIf c) (s'.skipIf c') :=
  hc ▸ h.map (·.skipIf c') fun _ => rfl

theorem resultThenVfReset (h : AgreeOn P s s') (x : Nibble) {b b' : Byte} (hb : b' = b) :
    AgreeOn P (s.resultThenVfReset x b) (s'.resultThenVfReset x b') := by
  unfold State.resultThenVfReset
  rw [h.congr State.cfg fun _ => rfl]
  split
  · exact (h.setV x hb).setV flagReg rfl
  · exact h.setV x hb

/-- The same bytes loaded into the same registers keep the relation. -/
theorem setRegs (h : AgreeOn P s s') (j : Nat) (bs : List Byte) : AgreeOn P (s.setRegs j bs) (s'.setRegs j bs) := by
  induction bs generalizing s s' j with
  | nil => exact h
  | cons b bs ih => exact ih (h.setV (BitVec.ofNat 4 j) rfl) (j + 1)

/-- The index update reads no register. -/
theorem indexInc_eq (h : AgreeOn P s s') (x : Nibble) : (s'.indexInc s'.i.toNat x).i = (s.indexInc s.i.toNat x).i :=
  h.congr (fun u => (u.indexInc u.i.toNat x).i) fun w =>
    (congrArg State.i (State.indexInc_eq_setI (s := s) (t := { s with v := w }) s.i.toNat x rfl rfl) :)

/-- Whether an instruction raises a fault depends only on registers that rule R23 lists among its reads. -/
theorem runsInstr_iff (h : AgreeOn P s s') (hr : ∀ r, readsReg s.cfg i r = true → s'.getV r = s.getV r) :
    s'.RunsInstr i ↔ s.RunsInstr i := by
  cases i with
  | ldFVx x => exact iff_of_eq (congrArg (fun b : Byte => b.toNat ≤ 0xF) (hr x (beq_self_eq_true x)))
  | _ => rw [h.frame]; exact Iff.rfl

/-- The shifts read one register, Vy or under QUIRK_SHIFT_VX Vx. -/
theorem shiftSource_eq (h : AgreeOn P s s') {x y : Nibble}
    (hr : ∀ r, (if s.cfg.quirkShiftVx then r == x else r == y) = true → s'.getV r = s.getV r) :
    s'.shiftSource x y = s.shiftSource x y := by
  unfold State.shiftSource
  rw [h.congr State.cfg fun _ => rfl]
  split
  · next hq => exact hr x (by simp [hq])
  · next hq => exact hr y (by simp [hq])

/-- The bytes Fx55 stores are those of the registers up to Vx. -/
theorem regsUpTo_eq {x : Nibble} (hr : ∀ r : Nibble, decide (r.toNat ≤ x.toNat) = true → s'.getV r = s.getV r) :
    s'.regsUpTo x = s.regsUpTo x := by
  refine List.map_congr_left fun j hj => hr _ (decide_eq_true ?_)
  have hjx : j < x.toNat + 1 := List.mem_range.1 hj
  have := x.isLt
  rw [BitVec.toNat_ofNat, Nat.mod_eq_of_lt (by omega)]
  omega

/-- Two runs of an instruction that raises no fault, from states that agree on the registers it reads. -/
theorem afterExec (h : AgreeOn P s s') (hr : ∀ r, readsReg s.cfg i r = true → s'.getV r = s.getV r)
    (hrun : s.RunsInstr i) : AgreeOn P (s.afterExec i) (s'.afterExec i) := by
  have hrun' : s'.RunsInstr i := (h.runsInstr_iff hr).2 hrun
  cases i with
  | cls | jp | ldI => exact h.map (·.afterExec _) fun _ => rfl
  | ret =>
    refine h.map (·.afterExec .ret) fun w => ?_
    rw [State.afterExec_ret hrun]
    exact State.afterExec_ret (s := { s with v := w }) hrun
  | call nnn =>
    refine h.map (·.afterExec (.call nnn)) fun w => ?_
    rw [State.afterExec_call hrun]
    exact State.afterExec_call (s := { s with v := w }) hrun
  | seByte x _ | sneByte x _ => exact h.skipIf (by rw [hr x (by simp [readsReg])])
  | seReg x y | sneReg x y => exact h.skipIf (by rw [hr x (by simp [readsReg]), hr y (by simp [readsReg])])
  | skp x | sknp x =>
    have hp : s'.isPressed = s.isPressed := h.congr State.isPressed fun _ => rfl
    exact h.skipIf (by rw [hr x (by simp [readsReg]), hp])
  | ldByte x _ => exact (h.setV x rfl).advance
  | addByte x _ => exact (h.setV x (by rw [hr x (by simp [readsReg])])).advance
  | ldReg x y => exact (h.setV x (hr y (by simp [readsReg]))).advance
  | orReg x y | andReg x y | xorReg x y =>
    exact (h.resultThenVfReset x (by rw [hr x (by simp [readsReg]), hr y (by simp [readsReg])])).advance
  | addReg x y =>
    have hx : s'.getV x = s.getV x := hr x (by simp [readsReg])
    have hy : s'.getV y = s.getV y := hr y (by simp [readsReg])
    exact ((h.setV x (by rw [hx, hy])).setV flagReg (by rw [hx, hy])).advance
  | subReg x y | subnReg x y =>
    have hx : s'.getV x = s.getV x := hr x (by simp [readsReg])
    have hy : s'.getV y = s.getV y := hr y (by simp [readsReg])
    exact ((h.setV flagReg (by rw [hx, hy])).setV x (by rw [hx, hy])).advance
  | shrReg x y | shlReg x y =>
    have hsrc : s'.shiftSource x y = s.shiftSource x y := h.shiftSource_eq hr
    exact ((h.setV flagReg (by rw [hsrc])).setV x (by rw [hsrc])).advance
  | jpV0 => exact h.setPc (by rw [hr 0 (by simp [readsReg])])
  | rndByte x kk =>
    have hd : s'.draws = s.draws := h.congr State.draws fun _ => rfl
    exact ((h.setV x (by rw [hd])).map (fun u => { u with draws := u.draws + 1 }) fun _ => rfl).advance
  | drw x y n =>
    have hd : s'.drawn x y n = s.drawn x y n := by
      unfold State.drawn
      rw [hr x (by simp [readsReg]), hr y (by simp [readsReg]), h.congr State.fb fun _ => rfl,
        h.congr (State.sprite · n) fun _ => rfl]
    rw [State.afterExec_drw hrun, State.afterExec_drw hrun', hd]
    exact ((h.map (fun u => { u with fb := (s.drawn x y n).1 }) fun _ => rfl).setV flagReg rfl).advance
  | ldVxDt x => exact (h.setV x (h.congr State.dt fun _ => rfl)).advance
  | ldVxK x =>
    have hk' : s'.pressedKey = s.pressedKey := h.congr State.pressedKey fun _ => rfl
    cases hk : s.pressedKey with
    | none =>
      rw [State.afterExec_ldVxK_of_none s x hk, State.afterExec_ldVxK_of_none s' x (hk'.trans hk)]
      exact h
    | some k =>
      rw [State.afterExec_ldVxK_of_some s x hk, State.afterExec_ldVxK_of_some s' x (hk'.trans hk)]
      exact (h.setV x rfl).advance
  | ldDtVx x =>
    rw [State.afterExec_ldDtVx, State.afterExec_ldDtVx, hr x (by simp [readsReg])]
    exact (h.map (fun u => { u with dt := s.getV x }) fun _ => rfl).advance
  | ldStVx x =>
    rw [State.afterExec_ldStVx, State.afterExec_ldStVx, hr x (by simp [readsReg])]
    exact (h.map (fun u => { u with st := s.getV x }) fun _ => rfl).advance
  | addIVx x =>
    have hi : s'.i = s.i := h.congr State.i fun _ => rfl
    exact (h.setI (by rw [hi, hr x (by simp [readsReg])])).advance
  | ldFVx x =>
    rw [State.afterExec_ldFVx hrun, State.afterExec_ldFVx hrun']
    exact (h.setI (by rw [hr x (by simp [readsReg])])).advance
  | ldBVx x =>
    rw [State.afterExec_ldBVx hrun, State.afterExec_ldBVx hrun', hr x (by simp [readsReg])]
    exact (h.map (fun u => { u with mem := u.mem.setList u.i.toNat (bcdDigits (s.getV x)) }) fun _ => rfl).advance
  | stRegs x =>
    rw [State.afterExec_stRegs hrun, State.afterExec_stRegs hrun', regsUpTo_eq hr]
    exact ((h.map (fun u => { u with mem := u.mem.setList u.i.toNat (s.regsUpTo x) }) fun _ => rfl).setI
      (h.indexInc_eq x)).advance
  | ldRegs x =>
    have hbytes : s'.loadBytes x = s.loadBytes x := h.congr (State.loadBytes · x) fun _ => rfl
    rw [State.afterExec_ldRegs hrun, State.afterExec_ldRegs hrun', hbytes]
    exact ((h.setRegs 0 _).setI (h.indexInc_eq x)).advance

end State.AgreeOn

/-- Settles O58: where the instruction raises no fault, by the relation of two runs; where it raises one, the record is
the same, since it reads no register. -/
theorem registerReadsByInstruction : Obligations.RegisterReadsByInstruction := by
  intro i s s' hframe hr
  have h : State.AgreeOn (fun r => s'.getV r = s.getV r) s s' := ⟨hframe, fun _ hr => hr⟩
  refine ⟨_, _, exec_eq_next_afterExec i s, exec_eq_next_afterExec i s', ?_⟩
  by_cases hrun : s.RunsInstr i
  · have ht := h.afterExec hr hrun
    exact ⟨ht.congr State.fault fun _ => rfl, fun _ => ⟨ht.frame, ht.regs⟩⟩
  · obtain ⟨heq, hne⟩ := State.afterExec_fault_congr hrun (mt (h.runsInstr_iff hr).1 hrun)
      (h.congr (State.execFault · i) fun _ => rfl)
    exact ⟨heq, fun hn => absurd hn hne⟩

end Sys2Proof.Machine

/-! # Two runs from states that differ in dead stack entries -/

namespace Sys2Proof.Machine

/-! ## Only 2nnn and 00EE read the stack -/

theorem State.resultThenVfReset_withStack (s : State) (z : Vector Word 16) (x : Nibble) (b : Byte) :
    { s with stack := z }.resultThenVfReset x b = { s.resultThenVfReset x b with stack := z } := by
  simp only [State.resultThenVfReset]
  split <;> rfl

theorem State.setRegs_withStack (bs : List Byte) (s : State) (z : Vector Word 16) (j : Nat) :
    { s with stack := z }.setRegs j bs = { s.setRegs j bs with stack := z } := by
  induction bs generalizing s j with
  | nil => rfl
  | cons b bs ih => exact ih (s.setV (BitVec.ofNat 4 j) b) (j + 1)

theorem State.indexInc_i_withStack (s : State) (z : Vector Word 16) (a : Nat) (x : Nibble) :
    ({ s with stack := z }.indexInc a x).i = (s.indexInc a x).i :=
  (congrArg State.i (State.indexInc_eq_setI (s := s) (t := { s with stack := z }) a x rfl rfl) :)

/-- An instruction other than 2nnn and 00EE does with another stack what it does with this one. -/
theorem State.afterExec_withStack {s : State} {i : Instr} (z : Vector Word 16) (h : s.RunsInstr i)
    (hret : i ≠ .ret) (hcall : ∀ nnn, i ≠ .call nnn) :
    { s with stack := z }.afterExec i = { s.afterExec i with stack := z } := by
  cases i with
  | ret => exact absurd rfl hret
  | call nnn => exact absurd rfl (hcall nnn)
  | orReg x y | andReg x y | xorReg x y =>
    exact congrArg State.advance (State.resultThenVfReset_withStack s z x _)
  | drw x y n => rw [State.afterExec_drw h, State.afterExec_drw (s := { s with stack := z }) h]; rfl
  | ldVxK x =>
    cases hk : s.pressedKey with
    | none => rw [State.afterExec_ldVxK_of_none s x hk, State.afterExec_ldVxK_of_none { s with stack := z } x hk]
    | some k => rw [State.afterExec_ldVxK_of_some s x hk, State.afterExec_ldVxK_of_some { s with stack := z } x hk]; rfl
  | ldFVx x => rw [State.afterExec_ldFVx h, State.afterExec_ldFVx (s := { s with stack := z }) h]; rfl
  | ldBVx x => rw [State.afterExec_ldBVx h, State.afterExec_ldBVx (s := { s with stack := z }) h]; rfl
  | stRegs x =>
    rw [State.afterExec_stRegs h, State.afterExec_stRegs (s := { s with stack := z }) h, State.indexInc_i_withStack]
    rfl
  | ldRegs x =>
    rw [State.afterExec_ldRegs h, State.afterExec_ldRegs (s := { s with stack := z }) h, State.indexInc_i_withStack,
      State.setRegs_withStack]
    rfl
  | _ => rfl

/-- An instruction other than 2nnn and 00EE keeps the stack and SP. -/
theorem State.Effect.stack_sp_eq {s t : State} {i : Instr} (he : s.Effect i t) (hret : i ≠ .ret)
    (hcall : ∀ nnn, i ≠ .call nnn) : t.stack = s.stack ∧ t.sp = s.sp := by
  cases he with
  | ret => exact absurd rfl hret
  | call nnn => exact absurd rfl (hcall nnn)
  | _ => exact ⟨rfl, rfl⟩

/-! ## The relation and its preservation -/

/-- The second state differs from the first in dead stack entries alone, those at index SP or above (10_state.md rule
R31). -/
structure State.SameLiveStack (s s' : State) : Prop where
  frame : s' = { s with stack := s'.stack }
  live : ∀ k : Fin 16, k.val < s.sp.val → s'.stack[k.val] = s.stack[k.val]

namespace State.SameLiveStack
variable {s s' : State} {i : Instr}

/-- What does not look at the stack is equal in both states. -/
theorem congr {α : Type} (h : SameLiveStack s s') (f : State → α) (hf : ∀ z, f { s with stack := z } = f s) :
    f s' = f s := by
  rw [h.frame, hf]

/-- Whether an instruction raises a fault does not depend on the stack's entries. -/
theorem runsInstr_iff (h : SameLiveStack s s') : s'.RunsInstr i ↔ s.RunsInstr i :=
  iff_of_eq (h.congr (State.RunsInstr · i) fun _ => by cases i <;> rfl)

/-- A return pops a live entry, the same one in both states. -/
theorem afterExec_ret (h : SameLiveStack s s') (hsp : 0 < s.sp.val) :
    SameLiveStack (s.afterExec .ret) (s'.afterExec .ret) := by
  obtain ⟨z, rfl⟩ : ∃ z, s' = { s with stack := z } := ⟨_, h.frame⟩
  have htop : z[s.sp.val - 1] = s.stack[s.sp.val - 1] := h.live ⟨s.sp.val - 1, by omega⟩ (Nat.sub_lt hsp Nat.one_pos)
  rw [State.afterExec_ret hsp, State.afterExec_ret (s := { s with stack := z }) hsp]
  refine ⟨?_, fun k hk => h.live k (Nat.lt_of_lt_of_le hk (Nat.sub_le _ _))⟩
  simp only [htop]

/-- A call overwrites the first dead entry with the same address in both states. -/
theorem afterExec_call (h : SameLiveStack s s') (nnn : Addr12) (hsp : s.sp.val < 16) :
    SameLiveStack (s.afterExec (.call nnn)) (s'.afterExec (.call nnn)) := by
  obtain ⟨z, rfl⟩ : ∃ z, s' = { s with stack := z } := ⟨_, h.frame⟩
  rw [State.afterExec_call hsp, State.afterExec_call (s := { s with stack := z }) hsp]
  refine ⟨rfl, fun k hk => ?_⟩
  have hk' : k.val < s.sp.val + 1 := hk
  simp only [Vector.getElem_set]
  split
  · rfl
  · next hne => exact h.live k (by omega)

/-- Two runs of an instruction that raises no fault. -/
theorem afterExec (h : SameLiveStack s s') (hrun : s.RunsInstr i) :
    SameLiveStack (s.afterExec i) (s'.afterExec i) := by
  by_cases hret : i = .ret
  · subst hret; exact h.afterExec_ret hrun
  by_cases hcall : ∃ nnn, i = .call nnn
  · obtain ⟨nnn, rfl⟩ := hcall; exact h.afterExec_call nnn hrun
  have hcall' : ∀ nnn, i ≠ .call nnn := fun nnn hn => hcall ⟨nnn, hn⟩
  obtain ⟨hst, hsp⟩ := (State.effect_afterExec hrun).stack_sp_eq hret hcall'
  have ht : s'.afterExec i = { s.afterExec i with stack := s'.stack } := by
    conv_lhs => rw [h.frame]
    exact State.afterExec_withStack s'.stack hrun hret hcall'
  rw [ht]
  refine ⟨rfl, fun k hk => ?_⟩
  simp only [hst]
  exact h.live k (hsp ▸ hk)

end State.SameLiveStack

/-! ## The instruction cycle -/

/-- A word fetched and decoded is executed. -/
theorem instructionCycle_of_ok {run : Instr → State → Out} {s : State} {i : Instr} (hs : s.fault = none)
    (hpc : s.pc.toNat ≤ 0xFFE) (hd : decodeWord s.wordAtPc = .ok i) : instructionCycle run s = run i s := by
  rw [instructionCycle_of_running run s hs, if_pos hpc, runWord_of_ok run _ s i hd]

/-- A word fetched that is no instruction raises UNKNOWN_OPCODE. -/
theorem instructionCycle_of_error {run : Instr → State → Out} {s : State} {e : DecodeError} (hs : s.fault = none)
    (hpc : s.pc.toNat ≤ 0xFFE) (hd : decodeWord s.wordAtPc = .error e) :
    instructionCycle run s = .next (s.raise .unknownOpcode (some s.wordAtPc) 0) := by
  rw [instructionCycle_of_running run s hs, if_pos hpc, runWord_of_error run _ s e hd]

/-- A fetch out of bounds raises MEM_BOUNDS. -/
theorem instructionCycle_of_gt {run : Instr → State → Out} {s : State} (hs : s.fault = none)
    (hpc : ¬ s.pc.toNat ≤ 0xFFE) :
    instructionCycle run s = .next (s.raise .memBounds none (max s.pc.toNat 4096)) := by
  rw [instructionCycle_of_running run s hs, if_neg hpc]

/-- Settles O30: fetch and decode do not look at the stack, and every instruction keeps the relation. -/
theorem deadStackEntriesUnobservable : Obligations.DeadStackEntriesUnobservable := by
  intro s s' hframe hlive
  have h : State.SameLiveStack s s' := ⟨hframe, hlive⟩
  have hf : s'.fault = s.fault := h.congr State.fault fun _ => rfl
  have hpc : s'.pc = s.pc := h.congr State.pc fun _ => rfl
  have hw : s'.wordAtPc = s.wordAtPc := h.congr State.wordAtPc fun _ => rfl
  cases hs : s.fault with
  | some r =>
    have hs' : s'.fault = some r := hf.trans hs
    exact ⟨s, s', instructionCycle_of_faulted exec s r hs, instructionCycle_of_faulted exec s' r hs', hf,
      fun hn => by simp [hs] at hn⟩
  | none =>
    have hs' : s'.fault = none := hf.trans hs
    by_cases hb : s.pc.toNat ≤ 0xFFE
    · cases hd : decodeWord s.wordAtPc with
      | error e =>
        refine ⟨_, _, instructionCycle_of_error hs hb hd, instructionCycle_of_error hs' (hpc ▸ hb) (hw ▸ hd), ?_,
          fun hn => by cases hn⟩
        simp only [State.raise, hpc, hw]
      | ok i =>
        refine ⟨_, _, (instructionCycle_of_ok hs hb hd).trans (exec_eq_next_afterExec i s),
          (instructionCycle_of_ok hs' (hpc ▸ hb) (hw ▸ hd)).trans (exec_eq_next_afterExec i s'), ?_⟩
        by_cases hrun : s.RunsInstr i
        · have ht := h.afterExec hrun
          exact ⟨ht.congr State.fault fun _ => rfl, fun _ => ⟨ht.frame, ht.live⟩⟩
        · obtain ⟨heq, hne⟩ := State.afterExec_fault_congr hrun (mt h.runsInstr_iff.1 hrun)
            (h.congr (State.execFault · i) fun _ => rfl)
          exact ⟨heq, fun hn => absurd hn hne⟩
    · refine ⟨_, _, instructionCycle_of_gt hs hb, instructionCycle_of_gt hs' (hpc ▸ hb), ?_, fun hn => by cases hn⟩
      simp only [State.raise, hpc]

end Sys2Proof.Machine

/-! # The machine's invariant -/

namespace Sys2Proof.Machine

/-! ## Fault records -/

/-- The record of a fetch out of bounds. -/
theorem FaultRecord.wellFormed_fetch {pc : Word} (hlo : ¬ pc.toNat ≤ 0xFFE) (hhi : pc.toNat ≤ 0x10FE) :
    FaultRecord.WellFormed ⟨.memBounds, pc, none, BitVec.ofNat 17 (max pc.toNat 4096)⟩ where
  addrZero h := absurd rfl h
  addrRange _ := by rw [BitVec.toNat_ofNat]; omega
  wordMissing := iff_of_true rfl (by simp only; omega)
  fetchFault _ := rfl
  notRegIndex := by simp

/-- The record of a word that is no instruction. -/
theorem FaultRecord.wellFormed_decode {pc w : Word} (hpc : pc.toNat ≤ 0xFFE) :
    FaultRecord.WellFormed ⟨.unknownOpcode, pc, some w, BitVec.ofNat 17 0⟩ where
  addrZero _ := rfl
  addrRange h := by cases h
  wordMissing := iff_of_false (by simp) (by simp only; omega)
  fetchFault h := by cases h
  notRegIndex := by simp

/-- No instruction raises REG_INDEX. -/
theorem canRaise_ne_regIndex (i : Instr) : canRaise i ≠ some .regIndex := by
  cases i <;> simp [canRaise]

/-- The record of an instruction that raises a fault. -/
theorem FaultRecord.wellFormed_execFault {s : State} {i : Instr} {r : FaultRecord} (hpc : s.pc.toNat ≤ 0xFFE)
    (h : s.execFault i = some r) : r.WellFormed := by
  obtain ⟨c, hc, rfl⟩ := Option.map_eq_some_iff.1 h
  have hi := s.i.isLt
  exact
    { addrZero := fun hne => by simp only [if_neg hne]; rfl
      addrRange := fun heq => by simp only [if_pos heq, BitVec.toNat_ofNat]; omega
      wordMissing := iff_of_false (by simp) (by simp only; omega)
      fetchFault := fun hn => by cases hn
      notRegIndex := fun hreg => canRaise_ne_regIndex i (hreg ▸ hc) }

/-! ## One instruction -/

namespace State.Inv
variable {s t : State} {i : Instr}

/-- The next pc of an instruction fetched inside memory is at most 0x10FE: the largest target is that of Bnnn, and a
return address is at most 0x1000 (10_state.md rule R29, 42_flow.md rule R140). -/
theorem nextPc_le (h : s.Inv) (hpc : s.pc.toNat ≤ 0xFFE) : (s.nextPc i).toNat ≤ 0x10FE := by
  have h2 : (s.pc + 2).toNat ≤ 0x10FE := by bv_omega
  have h4 : (s.pc + 4).toNat ≤ 0x10FE := by bv_omega
  cases i with
  | ret =>
    simp only [State.nextPc]
    split
    · have := h.returns ⟨s.sp.val - 1, by omega⟩ (by simp only; omega)
      simp only at this
      omega
    · exact h.pcBound
  | jp nnn | call nnn =>
    have := nnn.isLt
    simp only [State.nextPc, BitVec.truncate_eq_setWidth, BitVec.toNat_setWidth]
    omega
  | jpV0 nnn =>
    have := nnn.isLt
    have := (s.getV 0).isLt
    simp only [State.nextPc, BitVec.toNat_ofNat]
    omega
  | seByte | sneByte | seReg | sneReg | skp =>
    simp only [State.nextPc]
    split
    · exact h4
    · exact h2
  | sknp =>
    simp only [State.nextPc]
    split
    · exact h2
    · exact h4
  | ldVxK =>
    simp only [State.nextPc]
    split
    · exact h2
    · exact h.pcBound
  | _ => exact h2

/-- An instruction that raises no fault keeps memory in canonical form. -/
theorem memory_of_effect (h : s.Inv) (he : s.Effect i t) : t.mem.wf = true := by
  cases he with
  | bcd x mem hm | store x mem hm => exact hm h.memory
  | _ => exact h.memory

/-- The one entry an instruction pushes is the address after a fetched word, at most 0x1000. -/
theorem returns_of_effect (h : s.Inv) (hpc : s.pc.toNat ≤ 0xFFE) (he : s.Effect i t) (k : Fin 16)
    (hk : k.val < t.sp.val) : (t.stack[k.val]).toNat ≤ 0x1000 := by
  cases he with
  | ret hsp => exact h.returns k (Nat.lt_of_lt_of_le hk (Nat.sub_le _ _))
  | call nnn hsp =>
    have hk' : k.val < s.sp.val + 1 := hk
    simp only [Vector.getElem_set]
    split
    · bv_omega
    · exact h.returns k (by omega)
  | _ => exact h.returns k hk

/-- Every instruction fetched inside memory keeps the invariant, whether it raises a fault or not. -/
theorem afterExec (h : s.Inv) (hpc : s.pc.toNat ≤ 0xFFE) : (s.afterExec i).Inv := by
  by_cases hrun : s.RunsInstr i
  · have he := State.effect_afterExec hrun
    exact
      { memory := h.memory_of_effect he
        returns := h.returns_of_effect hpc he
        pcBound := by rw [State.afterExec_pc hrun]; exact h.nextPc_le hpc
        record := by rw [he.fault_eq]; exact h.record }
  · obtain ⟨v, mem, draws, hm, he⟩ := State.afterExec_of_not_runsInstr hrun
    rw [he]
    exact ⟨hm h.memory, h.returns, h.pcBound, fun r hr => FaultRecord.wellFormed_execFault hpc hr⟩

/-- Cxkk with any random byte keeps the invariant. -/
theorem applyRnd (h : s.Inv) (hpc : s.pc.toNat ≤ 0xFFE) (rnd : Byte) (x : Nibble) (kk : Byte) :
    (s.applyRnd rnd x kk).Inv where
  memory := h.memory
  returns := h.returns
  pcBound := by rw [State.applyRnd_pc]; bv_omega
  record := h.record

/-! ## One step -/

/-- The instruction cycle keeps the invariant if its execute stage does. -/
theorem instructionCycle {run : Instr → State → Out} (h : s.Inv)
    (hrun : s.pc.toNat ≤ 0xFFE → ∀ i u, run i s = .next u → u.Inv) (ht : instructionCycle run s = .next t) :
    t.Inv := by
  cases hs : s.fault with
  | some r =>
    rw [instructionCycle_of_faulted run s r hs] at ht
    cases ht
    exact h
  | none =>
    by_cases hpc : s.pc.toNat ≤ 0xFFE
    · cases hd : decodeWord s.wordAtPc with
      | error e =>
        rw [instructionCycle_of_error hs hpc hd] at ht
        cases ht
        refine ⟨h.memory, h.returns, h.pcBound, fun r hr => ?_⟩
        cases hr
        exact FaultRecord.wellFormed_decode hpc
      | ok i =>
        rw [instructionCycle_of_ok hs hpc hd] at ht
        exact hrun hpc i t ht
    · rw [instructionCycle_of_gt hs hpc] at ht
      cases ht
      refine ⟨h.memory, h.returns, h.pcBound, fun r hr => ?_⟩
      cases hr
      exact FaultRecord.wellFormed_fetch hpc h.pcBound

/-- STEP(rnd) executes Cxkk with the byte the host supplies, and every other instruction as STEP does. -/
theorem execWith (h : s.Inv) (hpc : s.pc.toNat ≤ 0xFFE) {rnd : Byte} (ht : execWith rnd i s = .next t) : t.Inv := by
  have hexec : exec i s = .next t → t.Inv := fun he => State.afterExec_eq he ▸ h.afterExec hpc
  cases i with
  | rndByte x kk => cases ht; exact h.applyRnd hpc rnd x kk
  | _ => exact hexec ht

/-! ## The host's operations -/

/-- The reset state meets the invariant, in every configuration and whatever the counter of free values is. -/
theorem resetWith (cfg : Config) (draws : Nat) : State.Inv { State.resetWith cfg with draws := draws } where
  memory := Memory.wf_setList _ _ _ (by simp) rfl
  returns k hk := absurd hk (Nat.not_lt_zero _)
  pcBound := by simp [State.resetWith]
  record r hr := by cases hr

theorem load (h : s.Inv) (bytes : List Byte) : (s.load bytes).2.Inv := by
  unfold State.load
  split
  · exact h
  split
  · exact h
  · next hlen => exact ⟨Memory.wf_setList _ _ _ (Nat.le_of_not_lt hlen) h.memory, h.returns, h.pcBound, h.record⟩

theorem timerTick (h : s.Inv) : s.timerTick.Inv := by
  unfold State.timerTick
  split
  · exact h
  · exact ⟨h.memory, h.returns, h.pcBound, h.record⟩

theorem setKey (h : s.Inv) (code : Nat) (pressed : Bool) : (s.setKey code pressed).Inv := by
  unfold State.setKey
  split
  · exact h
  split
  · exact ⟨h.memory, h.returns, h.pcBound, h.record⟩
  · exact h

end State.Inv

/-- STEP's answer to the host holds the state the step leaves. -/
theorem stepReply_eq_next {o : Out} {reply : HostReply} {t : State} (h : stepReply o = .next (reply, t)) :
    o = .next t := by
  cases o with
  | next u => cases h; rfl
  | fault r => cases h
  | refused r => cases h

/-- Settles O16. -/
theorem resetMeetsInvariant : Obligations.ResetMeetsInvariant :=
  State.Inv.resetWith referenceConfig 0

/-- Settles O15: fetch and decode faults write a record of the right form, and every instruction keeps the invariant. -/
theorem stepKeepsInvariant : Obligations.StepKeepsInvariant := by
  intro s t h ht
  exact h.instructionCycle (fun hpc i u hu => State.afterExec_eq hu ▸ h.afterExec hpc) ht

/-- Settles O17, operation by operation. -/
theorem hostOperationsKeepInvariant : Obligations.HostOperationsKeepInvariant := by
  intro op s t reply h ht
  cases op with
  | reset => cases ht; exact State.Inv.resetWith s.cfg s.draws
  | load bytes => cases ht; exact h.load bytes
  | step rnd => exact h.instructionCycle (fun hpc i u hu => h.execWith hpc hu) (stepReply_eq_next ht)
  | timerTick => cases ht; exact h.timerTick
  | setKey code pressed => cases ht; exact h.setKey code pressed
  | readFb | readSound | readStatus => cases ht; exact h

end Sys2Proof.Machine

/-! # RESET and READ_STATUS -/

namespace Sys2Proof.Machine

/-- Above the 80 bytes of the font an unlisted address reads as 0. -/
theorem Memory.unlisted_of_le {a : Nat} (h : 80 ≤ a) : Memory.unlisted a = 0 :=
  List.getD_eq_default _ _ h

/-- The reset memory holds FONTSET at 0x000 to 0x04F. -/
theorem State.resetWith_mem_font (cfg : Config) (a : Fin 80) :
    (State.resetWith cfg).mem.get a.val = cfg.fontset[a.val] := by
  rw [State.resetWith, Memory.get_setList, dif_pos (by simp)]
  simp

/-- The reset memory holds 0 above FONTSET. -/
theorem State.resetWith_mem_zero (cfg : Config) {a : Nat} (h : 80 ≤ a) : (State.resetWith cfg).mem.get a = 0 := by
  rw [State.resetWith, Memory.get_setList, dif_neg (by simp; omega)]
  exact Memory.unlisted_of_le h

/-- RESET leaves the reset state of some configuration, and so does the model's State.reset. -/
theorem State.eq_resetWith {s t : State} (h : hostStep .reset s = .next (.done, t) ∨ t = State.reset) :
    ∃ cfg draws, t = { State.resetWith cfg with draws := draws } := by
  obtain h | h := h
  · cases h; exact ⟨s.cfg, s.draws, rfl⟩
  · exact ⟨referenceConfig, 0, h⟩

/-- Settles O18, field by field of the reset state. -/
theorem resetState : Obligations.ResetState := by
  intro s t h
  obtain ⟨cfg, draws, rfl⟩ := State.eq_resetWith h
  exact ⟨rfl, rfl, fun k => Vector.getElem_replicate _, fun r => Vector.getElem_replicate _, rfl, rfl, rfl,
    fun k => Vector.getElem_replicate _,
    fun r c => by simp [State.resetWith, Framebuffer.pixel],
    State.resetWith_mem_font cfg, fun a ha _ => State.resetWith_mem_zero cfg ha, rfl⟩

theorem State.readStatus_of_running {s : State} (h : s.fault = none) :
    s.readStatus = ⟨false, 0, 0, false, 0, 0⟩ := by
  simp only [State.readStatus, h]

theorem State.readStatus_of_faulted {s : State} {r : FaultRecord} (h : s.fault = some r) :
    s.readStatus = ⟨true, r.cause.code, r.pc, r.word.isSome, r.word.getD 0, r.addr⟩ := by
  simp only [State.readStatus, h]

/-- Settles O53. -/
theorem readStatusShowsRecord : Obligations.ReadStatusShowsRecord := by
  intro s
  constructor
  · intro h
    simp only [hostStep, State.readStatus_of_running h]
  · intro cause pc word addr h
    simp only [hostStep, State.readStatus_of_faulted h]
    cases cause <;> rfl

end Sys2Proof.Machine

/-! # Memory accesses and LOAD -/

namespace Sys2Proof.Machine

/-! ## One access -/

theorem memRead_of_lt (m : Memory) {a : Nat} (h : a < 4096) : memRead m a = .ok (m.get a) := if_pos h

theorem memRead_of_ge (m : Memory) {a : Nat} (h : 4096 ≤ a) : memRead m a = .error a := if_neg (Nat.not_lt.2 h)

theorem memWrite_of_lt (m : Memory) {a : Nat} (v : Byte) (h : a < 4096) : memWrite m a v = .ok (m.set a v) := if_pos h

theorem memWrite_of_ge (m : Memory) {a : Nat} (v : Byte) (h : 4096 ≤ a) : memWrite m a v = .error a :=
  if_neg (Nat.not_lt.2 h)

theorem Memory.get_set_self (m : Memory) (a : Nat) (v : Byte) : (m.set a v).get a = v := by
  rw [Memory.get_set, if_pos rfl]

/-- An access depends on the byte at its address alone. -/
theorem memRead_congr {m m' : Memory} {a : Nat} (h : m.get a = m'.get a) : memRead m a = memRead m' a := by
  simp only [memRead, h]

/-- A write of one byte leaves the reads of every other address as they were, out of bounds or not. -/
theorem memRead_set_of_ne (m : Memory) {a b : Nat} (v : Byte) (h : b ≠ a) : memRead (m.set a v) b = memRead m b :=
  memRead_congr (by rw [Memory.get_set, if_neg h])

/-! ## LOAD (20_memory.md rule R71) -/

/-- Within a run of writes, a read answers the byte written there. -/
theorem Memory.get_setList_add (bs : List Byte) (m : Memory) (a : Nat) {j : Nat} (h : j < bs.length) :
    (m.setList a bs).get (a + j) = bs[j] := by
  have hin : a ≤ a + j ∧ a + j - a < bs.length := by omega
  rw [Memory.get_setList, dif_pos hin]
  simp only [Nat.add_sub_cancel_left]

/-- Outside a run of writes, every byte reads as before. -/
theorem Memory.get_setList_of_outside (bs : List Byte) (m : Memory) {a b : Nat} (h : b < a ∨ a + bs.length ≤ b) :
    (m.setList a bs).get b = m.get b := by
  rw [Memory.get_setList, dif_neg (by omega)]

section Load
variable {s : State} {bytes : List Byte}

theorem State.load_of_faulted (h : s.fault ≠ none) : s.load bytes = (.faulted, s) :=
  if_pos (Option.isSome_iff_ne_none.2 h)

theorem State.load_of_running (h : s.fault = none) :
    s.load bytes =
      if 4096 < romBase + bytes.length then (.capacityError, s)
      else (.ok, { s with mem := s.mem.setList romBase bytes }) := by
  simp [State.load, h]

end Load

/-- Settles O48: the loaded memory is the run of writes from ROM_BASE up. -/
theorem loadCopiesRom : Obligations.LoadCopiesRom := by
  intro s bytes
  refine ⟨State.load_of_faulted, fun hrun hlong => ?_, fun hrun hfits => ?_⟩
  · rw [State.load_of_running hrun, romBase, if_pos hlong]
  · refine ⟨s.mem.setList romBase bytes, ?_, fun j hj => Memory.get_setList_add bytes s.mem romBase hj,
      fun a ha => Memory.get_setList_of_outside bytes s.mem ha⟩
    rw [State.load_of_running hrun, romBase, if_neg (Nat.not_lt.2 hfits)]

/-- Settles O21. -/
theorem memoryReadAfterWrite : Obligations.MemoryReadAfterWrite := by
  refine ⟨fun m a v ha => ?_, fun m a v ha => ⟨memRead_of_ge m ha, memWrite_of_ge m v ha⟩⟩
  refine ⟨m.set a v, memWrite_of_lt m v ha, ?_, fun b hb => memRead_set_of_ne m v hb⟩
  rw [memRead_of_lt _ ha, Memory.get_set_self]

end Sys2Proof.Machine

/-! # Decoder and encoder (30_encoding.md rules R81 to R94) -/

namespace Sys2Proof

/-! ## Fields and formats -/

@[simp] theorem fields_formatNNN (op : Nibble) (nnn : Addr12) :
    fieldOp (formatNNN op nnn) = op ∧ fieldNNN (formatNNN op nnn) = nnn := by
  constructor <;> apply BitVec.eq_of_toNat_eq <;> simp only [fieldOp_toNat, fieldNNN_toNat, formatNNN_toNat] <;> omega

@[simp] theorem fields_formatXKK (op x : Nibble) (kk : Byte) :
    fieldOp (formatXKK op x kk) = op ∧ fieldX (formatXKK op x kk) = x ∧ fieldKK (formatXKK op x kk) = kk := by
  refine ⟨?_, ?_, ?_⟩ <;> apply BitVec.eq_of_toNat_eq <;>
    simp only [fieldOp_toNat, fieldX_toNat, fieldKK_toNat, formatXKK_toNat] <;> omega

@[simp] theorem fields_formatXYN (op x y n : Nibble) :
    fieldOp (formatXYN op x y n) = op ∧ fieldX (formatXYN op x y n) = x ∧ fieldY (formatXYN op x y n) = y ∧
      fieldN (formatXYN op x y n) = n := by
  refine ⟨?_, ?_, ?_, ?_⟩ <;> apply BitVec.eq_of_toNat_eq <;>
    simp only [fieldOp_toNat, fieldX_toNat, fieldY_toNat, fieldN_toNat, formatXYN_toNat] <;> omega

section WordOfFields
variable {w : Word} {op n : Nibble} {kk : Byte}

/-- A word with a given op is its other fields put after that op. -/
theorem formatNNN_of_op (hop : fieldOp w = op) : formatNNN op (fieldNNN w) = w := hop ▸ formatNNN_fields w

theorem formatXKK_of_op (hop : fieldOp w = op) : formatXKK op (fieldX w) (fieldKK w) = w := hop ▸ formatXKK_fields w

theorem formatXYN_of_op (hop : fieldOp w = op) : formatXYN op (fieldX w) (fieldY w) (fieldN w) = w :=
  hop ▸ formatXYN_fields w

/-- A word with a given op and low byte is x put between them. -/
theorem formatXKK_of_op_kk (hop : fieldOp w = op) (hkk : fieldKK w = kk) : formatXKK op (fieldX w) kk = w :=
  hkk ▸ formatXKK_of_op hop

/-- A word with a given op and low nibble is x and y put between them. -/
theorem formatXYN_of_op_n (hop : fieldOp w = op) (hn : fieldN w = n) : formatXYN op (fieldX w) (fieldY w) n = w :=
  hn ▸ formatXYN_of_op hop

end WordOfFields

/-! ## The round trip -/

theorem decodeWord_encode (i : Instr) : decodeWord (encode i) = .ok i := by
  cases i with
  | cls | ret => rfl
  | jp | call | ldI | jpV0 | seByte | sneByte | ldByte | addByte | rndByte | drw => simp [encode, decodeWord]
  | seReg | sneReg => simp [encode, decodeWord, decodeNibbleZero]
  | ldReg | orReg | andReg | xorReg | addReg | subReg | shrReg | subnReg | shlReg =>
    simp [encode, decodeWord, decodeFamily8]
  | skp | sknp => simp [encode, decodeWord, decodeFamilyE]
  | ldVxDt | ldVxK | ldDtVx | ldStVx | addIVx | ldFVx | ldBVx | stRegs | ldRegs =>
    simp [encode, decodeWord, decodeFamilyF]

theorem decode_encodeBytes_append (i : Instr) (rest : List Byte) : decode (encodeBytes i ++ rest) = .ok (i, rest) := by
  simp only [encodeBytes, List.cons_append, List.nil_append, decode, wordOfBytes_bytes, decodeWord_encode]
  rfl

theorem Instr.wellFormed_eq_true (i : Instr) : i.wellFormed = true := by
  cases i <;> rfl

/-- Settles O2. -/
theorem decodeOfEncode : Obligations.DecodeOfEncode := fun i =>
  ⟨i.wellFormed_eq_true, decodeWord_encode i, decode_encodeBytes_append i⟩

section EncodeDecoded
variable {w : Word} {i : Instr}

theorem encode_of_decodeFamily0 (h : decodeFamily0 w = .ok i) : encode i = w := by
  unfold decodeFamily0 at h
  split at h <;> cases h
  all_goals exact (BitVec.eq_of_toNat_eq ‹_›).symm

/-- Families 0x5 and 0x9: the instruction is decoded only from a word whose nibble n is 0. -/
theorem fieldN_of_decodeNibbleZero {j : Instr} (h : decodeNibbleZero w j = .ok i) : j = i ∧ fieldN w = 0 := by
  unfold decodeNibbleZero at h
  split at h <;> cases h
  exact ⟨rfl, BitVec.eq_of_toNat_eq ‹_›⟩

theorem encode_of_decodeFamily8 (hop : fieldOp w = 0x8) (h : decodeFamily8 w = .ok i) : encode i = w := by
  unfold decodeFamily8 at h
  split at h <;> cases h
  all_goals exact formatXYN_of_op_n hop (BitVec.eq_of_toNat_eq ‹_›)

theorem encode_of_decodeFamilyE (hop : fieldOp w = 0xE) (h : decodeFamilyE w = .ok i) : encode i = w := by
  unfold decodeFamilyE at h
  split at h <;> cases h
  all_goals exact formatXKK_of_op_kk hop (BitVec.eq_of_toNat_eq ‹_›)

theorem encode_of_decodeFamilyF (hop : fieldOp w = 0xF) (h : decodeFamilyF w = .ok i) : encode i = w := by
  unfold decodeFamilyF at h
  split at h <;> cases h
  all_goals exact formatXKK_of_op_kk hop (BitVec.eq_of_toNat_eq ‹_›)

/-- Op by op (`h_k` is op `k - 1`): the fields the decoder read, put together again, are the word. -/
theorem encode_of_decodeWord (h : decodeWord w = .ok i) : encode i = w := by
  unfold decodeWord at h
  split at h
  case h_1 => exact encode_of_decodeFamily0 h
  case h_9 hop => exact encode_of_decodeFamily8 (BitVec.eq_of_toNat_eq hop) h
  case h_15 hop => exact encode_of_decodeFamilyE (BitVec.eq_of_toNat_eq hop) h
  case h_16 hop => exact encode_of_decodeFamilyF (BitVec.eq_of_toNat_eq hop) h
  case h_6 hop | h_10 hop =>
    obtain ⟨rfl, hn⟩ := fieldN_of_decodeNibbleZero h
    exact formatXYN_of_op_n (BitVec.eq_of_toNat_eq hop) hn
  case h_2 hop | h_3 hop | h_11 hop | h_12 hop => cases h; exact formatNNN_of_op (BitVec.eq_of_toNat_eq hop)
  case h_4 hop | h_5 hop | h_7 hop | h_8 hop | h_13 hop => cases h; exact formatXKK_of_op (BitVec.eq_of_toNat_eq hop)
  case h_14 hop => cases h; exact formatXYN_of_op (BitVec.eq_of_toNat_eq hop)
  case h_17 => cases h

end EncodeDecoded

/-- Settles O3. -/
theorem encodeOfDecode : Obligations.EncodeOfDecode := fun _ _ => encode_of_decodeWord

/-- A word decodes to an instruction exactly when it is the instruction's encoding. -/
theorem decodeWord_eq_ok_iff {w : Word} {i : Instr} : decodeWord w = .ok i ↔ encode i = w :=
  ⟨encode_of_decodeWord, fun h => h ▸ decodeWord_encode i⟩

/-! ## The opcode map -/

/-- Two rows that accept one word agree on every bit both test. -/
theorem Pattern.not_disjoint_of_accepts {p q : Pattern} {w : Word} (hp : p.accepts w = true) (hq : q.accepts w = true) :
    ¬ p.disjoint q = true := by
  simp only [Pattern.accepts, beq_iff_eq] at hp hq
  simp only [Pattern.disjoint, bne_iff_ne, ne_eq, Decidable.not_not, ← hp, ← hq]
  rw [BitVec.and_assoc, BitVec.and_assoc, BitVec.and_comm p.mask]

theorem Pattern.ne_of_disjoint {p q : Pattern} (h : p.disjoint q = true) : p ≠ q := by
  rintro rfl
  simp [Pattern.disjoint] at h

theorem pairwise_disjoint_of_tableWellFormed {ps : List Pattern} (h : tableWellFormed ps = true) :
    ps.Pairwise fun p q => p.disjoint q = true := by
  induction ps with
  | nil => exact .nil
  | cons p ps ih =>
    simp only [tableWellFormed, Bool.and_eq_true, List.all_eq_true] at h
    exact .cons h.1.2 (ih h.2)

/-- Of a well-formed table, at most one row accepts a word. -/
theorem eq_of_accepts_of_tableWellFormed {ps : List Pattern} (h : tableWellFormed ps = true) (w : Word) {p q : Pattern}
    (hp : p ∈ ps) (hq : q ∈ ps) (hpw : p.accepts w = true) (hqw : q.accepts w = true) : p = q := by
  have hsymm : Std.Symm fun p q : Pattern => p.disjoint q = true := ⟨fun p q h => by
    rw [Pattern.disjoint, bne_comm]; exact h⟩
  by_contra hne
  exact Pattern.not_disjoint_of_accepts hpw hqw ((pairwise_disjoint_of_tableWellFormed h).forall hp hq hne)

theorem tableWellFormed_opcodeMap : tableWellFormed opcodeMap = true := by decide

/-- Settles O6: the map is a well-formed table, so any two of its rows differ in a bit both test. -/
theorem opcodeMapUnambiguous : Obligations.OpcodeMapUnambiguous := by
  refine ⟨(pairwise_disjoint_of_tableWellFormed tableWellFormed_opcodeMap).imp Pattern.ne_of_disjoint, ?_⟩
  exact fun w p q => eq_of_accepts_of_tableWellFormed tableWellFormed_opcodeMap w

/-- The instructions of the map's 34 rows, in its order, with the fields of a word as their operands. -/
def rowInstrs (w : Word) : List Instr :=
  let x := fieldX w; let y := fieldY w; let kk := fieldKK w; let nnn := fieldNNN w
  [.cls, .ret, .jp nnn, .call nnn, .seByte x kk, .sneByte x kk, .seReg x y, .ldByte x kk, .addByte x kk,
   .ldReg x y, .orReg x y, .andReg x y, .xorReg x y, .addReg x y, .subReg x y, .shrReg x y, .subnReg x y,
   .shlReg x y, .sneReg x y, .ldI nnn, .jpV0 nnn, .rndByte x kk, .drw x y (fieldN w), .skp x, .sknp x,
   .ldVxDt x, .ldVxK x, .ldDtVx x, .ldStVx x, .addIVx x, .ldFVx x, .ldBVx x, .stRegs x, .ldRegs x]

theorem map_pattern_rowInstrs (w : Word) : (rowInstrs w).map Instr.pattern = opcodeMap := rfl

section Accepts
variable {v w : Word}

/-- A field that a row tests in every bit has, in a word the row accepts, the row's value. -/
theorem extractLsb'_of_accepts {mask : Word} (h : (⟨v, mask⟩ : Pattern).accepts w = true) {k m : Nat}
    (hm : mask.extractLsb' k m = BitVec.allOnes m) : w.extractLsb' k m = v.extractLsb' k m := by
  have hv : w &&& mask = v := beq_iff_eq.1 h
  rw [← hv, BitVec.extractLsb'_and, hm, BitVec.and_allOnes]

theorem eq_of_accepts (h : (⟨v, 0xFFFF⟩ : Pattern).accepts w = true) : v = w :=
  (beq_iff_eq.1 h).symm.trans BitVec.and_allOnes

/-! In a word that a row accepts, the fields the row tests have the row's values. -/

theorem formatNNN_of_accepts (h : (⟨v, 0xF000⟩ : Pattern).accepts w = true) :
    formatNNN (fieldOp v) (fieldNNN w) = w :=
  formatNNN_of_op (extractLsb'_of_accepts h (by decide))

theorem formatXKK_of_accepts (h : (⟨v, 0xF000⟩ : Pattern).accepts w = true) :
    formatXKK (fieldOp v) (fieldX w) (fieldKK w) = w :=
  formatXKK_of_op (extractLsb'_of_accepts h (by decide))

theorem formatXYN_of_accepts (h : (⟨v, 0xF000⟩ : Pattern).accepts w = true) :
    formatXYN (fieldOp v) (fieldX w) (fieldY w) (fieldN w) = w :=
  formatXYN_of_op (extractLsb'_of_accepts h (by decide))

theorem formatX_of_accepts (h : (⟨v, 0xF0FF⟩ : Pattern).accepts w = true) :
    formatXKK (fieldOp v) (fieldX w) (fieldKK v) = w :=
  formatXKK_of_op_kk (extractLsb'_of_accepts h (by decide)) (extractLsb'_of_accepts h (by decide))

theorem formatXY_of_accepts (h : (⟨v, 0xF00F⟩ : Pattern).accepts w = true) :
    formatXYN (fieldOp v) (fieldX w) (fieldY w) (fieldN v) = w :=
  formatXYN_of_op_n (extractLsb'_of_accepts h (by decide)) (extractLsb'_of_accepts h (by decide))

/-- Row by row, by the row's format: a word the row accepts is its instruction's encoding. -/
theorem encode_of_accepts : ∀ i ∈ rowInstrs w, i.pattern.accepts w = true → encode i = w := by
  simp only [rowInstrs, List.forall_mem_cons]
  exact ⟨eq_of_accepts, eq_of_accepts, formatNNN_of_accepts, formatNNN_of_accepts, formatXKK_of_accepts,
    formatXKK_of_accepts, formatXY_of_accepts, formatXKK_of_accepts, formatXKK_of_accepts,
    formatXY_of_accepts, formatXY_of_accepts, formatXY_of_accepts, formatXY_of_accepts, formatXY_of_accepts,
    formatXY_of_accepts, formatXY_of_accepts, formatXY_of_accepts, formatXY_of_accepts, formatXY_of_accepts,
    formatNNN_of_accepts, formatNNN_of_accepts, formatXKK_of_accepts, formatXYN_of_accepts, formatX_of_accepts,
    formatX_of_accepts, formatX_of_accepts, formatX_of_accepts, formatX_of_accepts, formatX_of_accepts,
    formatX_of_accepts, formatX_of_accepts, formatX_of_accepts, formatX_of_accepts, formatX_of_accepts,
    List.forall_mem_nil _⟩

end Accepts

open Laws.RowOfWord in
/-- An instruction's row accepts its encoding (rule R86). -/
theorem pattern_accepts_encode (i : Instr) : i.pattern.accepts (encode i) = true := by
  cases i
  exacts [cls, ret, jp _, call _, seByte _ _, sneByte _ _, seReg _ _, ldByte _ _, addByte _ _,
    ldReg _ _, orReg _ _, andReg _ _, xorReg _ _, addReg _ _, subReg _ _, shrReg _ _, subnReg _ _, shlReg _ _,
    sneReg _ _, ldI _, jpV0 _, rndByte _ _, drw _ _ _, skp _, sknp _,
    ldVxDt _, ldVxK _, ldDtVx _, ldStVx _, addIVx _, ldFVx _, ldBVx _, stRegs _, ldRegs _]

theorem Instr.pattern_mem_opcodeMap (i : Instr) : i.pattern ∈ opcodeMap :=
  List.contains_iff_mem.1 i.wellFormed_eq_true

/-- A row of the map accepts a word exactly when the word decodes to an instruction of that row (rule R94). -/
theorem accepts_iff_decodeWord {w : Word} {p : Pattern} (hp : p ∈ opcodeMap) :
    p.accepts w = true ↔ ∃ i, decodeWord w = .ok i ∧ i.pattern = p := by
  constructor
  · intro h
    rw [← map_pattern_rowInstrs w] at hp
    obtain ⟨i, hi, rfl⟩ := List.mem_map.1 hp
    exact ⟨i, decodeWord_eq_ok_iff.2 (encode_of_accepts i hi h), rfl⟩
  · rintro ⟨i, hd, rfl⟩
    exact encode_of_decodeWord hd ▸ pattern_accepts_encode i

/-! ## The words that are no instruction -/

/-- The words rules R87 to R90 leave without an instruction. -/
def IllegalWord (w : Word) : Prop :=
  (fieldOp w = 0x0 ∧ w ≠ 0x00E0 ∧ w ≠ 0x00EE) ∨
  ((fieldOp w = 0x5 ∨ fieldOp w = 0x9) ∧ fieldN w ≠ 0) ∨
  (fieldOp w = 0x8 ∧ fieldN w ∈ [0x8, 0x9, 0xA, 0xB, 0xC, 0xD, 0xF]) ∨
  (fieldOp w = 0xE ∧ fieldKK w ∉ [0x9E, 0xA1]) ∨
  (fieldOp w = 0xF ∧ fieldKK w ∉ [0x07, 0x0A, 0x15, 0x18, 0x1E, 0x29, 0x33, 0x55, 0x65])

/-- An answer of the decoder that rejects the word as unknown exactly where it is illegal. -/
def RejectsIff (illegal : Prop) (w : Word) (answer : Except DecodeError Instr) : Prop :=
  (illegal → answer = .error (.unknownOpcode w)) ∧ (¬ illegal → ∃ i, answer = .ok i)

section RejectsIff
variable {P : Prop} {w : Word}

theorem RejectsIff.ok (h : ¬ P) (i : Instr) : RejectsIff P w (.ok i) := ⟨fun hp => absurd hp h, fun _ => ⟨i, rfl⟩⟩

theorem RejectsIff.error (h : P) : RejectsIff P w (.error (.unknownOpcode w)) := ⟨fun _ => rfl, fun hn => absurd h hn⟩

theorem RejectsIff.congr {Q : Prop} {answer : Except DecodeError Instr} (hpq : P ↔ Q) (h : RejectsIff P w answer) :
    RejectsIff Q w answer := propext hpq ▸ h

end RejectsIff

theorem decodeFamily0_rejectsIff (w : Word) : RejectsIff (w ≠ 0x00E0 ∧ w ≠ 0x00EE) w (decodeFamily0 w) := by
  unfold decodeFamily0
  split
  case h_3 => exact .error (by simp_all [BitVec.toNat_eq_nat])
  all_goals next h => exact .ok (by simp [(BitVec.toNat_eq_nat.1 h).2]) _

theorem decodeNibbleZero_rejectsIff (w : Word) (i : Instr) : RejectsIff (fieldN w ≠ 0) w (decodeNibbleZero w i) := by
  unfold decodeNibbleZero
  split
  case h_2 => exact .error (by simp_all [BitVec.toNat_eq_nat])
  case h_1 h => exact .ok (by simp [(BitVec.toNat_eq_nat.1 h).2]) _

theorem decodeFamily8_rejectsIff (w : Word) :
    RejectsIff (fieldN w ∈ [0x8, 0x9, 0xA, 0xB, 0xC, 0xD, 0xF]) w (decodeFamily8 w) := by
  unfold decodeFamily8
  split
  case h_10 =>
    simp only [imp_false] at *
    exact .error (by simp only [List.mem_cons]; bv_omega)
  all_goals next h => exact .ok (by simp [(BitVec.toNat_eq_nat.1 h).2]) _

theorem decodeFamilyE_rejectsIff (w : Word) : RejectsIff (fieldKK w ∉ [0x9E, 0xA1]) w (decodeFamilyE w) := by
  unfold decodeFamilyE
  split
  case h_3 => exact .error (by simp_all [BitVec.toNat_eq_nat])
  all_goals next h => exact .ok (by simp [(BitVec.toNat_eq_nat.1 h).2]) _

theorem decodeFamilyF_rejectsIff (w : Word) :
    RejectsIff (fieldKK w ∉ [0x07, 0x0A, 0x15, 0x18, 0x1E, 0x29, 0x33, 0x55, 0x65]) w (decodeFamilyF w) := by
  unfold decodeFamilyF
  split
  case h_10 => exact .error (by simp_all [BitVec.toNat_eq_nat])
  all_goals next h => exact .ok (by simp [(BitVec.toNat_eq_nat.1 h).2]) _

/-- Op by op (`h_k` is op `k - 1`): only the families with a secondary field reject words. -/
theorem decodeWord_rejectsIff (w : Word) : RejectsIff (IllegalWord w) w (decodeWord w) := by
  have hop {k : Nat} (h : (fieldOp w).toNat = k) : fieldOp w = BitVec.ofNat 4 k := (BitVec.toNat_eq_nat.1 h).2
  unfold decodeWord
  split
  case h_1 h => exact (decodeFamily0_rejectsIff w).congr (by simp [IllegalWord, hop h])
  case h_6 h | h_10 h => exact (decodeNibbleZero_rejectsIff w _).congr (by simp [IllegalWord, hop h])
  case h_9 h => exact (decodeFamily8_rejectsIff w).congr (by simp [IllegalWord, hop h])
  case h_15 h => exact (decodeFamilyE_rejectsIff w).congr (by simp [IllegalWord, hop h])
  case h_16 h => exact (decodeFamilyF_rejectsIff w).congr (by simp [IllegalWord, hop h])
  case h_17 =>
    simp only [imp_false] at *
    exact absurd (fieldOp w).isLt (by omega)
  all_goals next h => exact .ok (by simp [IllegalWord, hop h]) _

/-- Settles O5. -/
theorem illegalWordsByFamily : Obligations.IllegalWordsByFamily := decodeWord_rejectsIff

theorem decodeWord_eq_unknownOpcode_iff {w : Word} :
    decodeWord w = .error (.unknownOpcode w) ↔ ∀ i, decodeWord w ≠ .ok i := by
  obtain ⟨hillegal, hlegal⟩ := decodeWord_rejectsIff w
  constructor
  · intro h i hi
    cases h.symm.trans hi
  · intro h
    by_cases hw : IllegalWord w
    · exact hillegal hw
    · obtain ⟨i, hi⟩ := hlegal hw
      exact absurd hi (h i)

/-- Settles O4: a word that some row accepts decodes, and one that decodes is accepted by its instruction's row. -/
theorem decodeSelectsOpcodeMapRow : Obligations.DecodeSelectsOpcodeMapRow := by
  intro w
  refine ⟨fun p hp => accepts_iff_decodeWord hp, ?_⟩
  rw [decodeWord_eq_unknownOpcode_iff]
  constructor
  · intro hno i hi
    have hyes := (accepts_iff_decodeWord i.pattern_mem_opcodeMap).2 ⟨i, hi, rfl⟩
    exact Bool.false_ne_true ((hno _ i.pattern_mem_opcodeMap).symm.trans hyes)
  · intro hno p hp
    rw [← Bool.not_eq_true, accepts_iff_decodeWord hp]
    exact fun ⟨i, hi, _⟩ => hno i hi

end Sys2Proof

/-! # STEP: the instruction cycle (30_encoding.md rule R95) -/

namespace Sys2Proof.Machine

/-! ## STEP and the execute stage -/

/-- Settles O7. -/
theorem stepRunsDecodedInstr : Obligations.StepRunsDecodedInstr := fun _ _ hrun hpc _ hd =>
  ⟨instructionCycle_of_ok hrun hpc hd, fun _ => instructionCycle_of_ok hrun hpc hd⟩

/-- Settles O8, outcome by outcome: FAULTED, fetch fault, decode fault, execute. -/
theorem stepIsInstructionCycle : Obligations.StepIsInstructionCycle := by
  intro rnd s
  cases hs : s.fault with
  | some r => exact instructionCycle_of_faulted _ s r hs
  | none =>
    rw [if_neg (not_not_intro rfl)]
    by_cases hpc : s.pc.toNat ≤ 0xFFE
    · rw [if_neg (by omega)]
      rw [← State.wordAtPc]
      cases hd : decodeWord s.wordAtPc with
      | error e => exact instructionCycle_of_error hs hpc hd
      | ok i => exact instructionCycle_of_ok hs hpc hd
    · rw [if_pos (by omega)]
      rw [← Nat.max_def, Nat.max_comm]
      exact instructionCycle_of_gt hs hpc

/-! ## Every step answers a next state -/

/-- The instruction cycle answers a next state if its execute stage does. -/
theorem exists_instructionCycle_eq_next {run : Instr → State → Out} (hrun : ∀ i s, ∃ t, run i s = .next t) (s : State) :
    ∃ t, instructionCycle run s = .next t := by
  cases hs : s.fault with
  | some r => exact ⟨s, instructionCycle_of_faulted run s r hs⟩
  | none =>
    by_cases hpc : s.pc.toNat ≤ 0xFFE
    · cases hd : decodeWord s.wordAtPc with
      | error e => exact ⟨_, instructionCycle_of_error hs hpc hd⟩
      | ok i => rw [instructionCycle_of_ok hs hpc hd]; exact hrun i s
    · exact ⟨_, instructionCycle_of_gt hs hpc⟩

/-- Only Cxkk reads the random byte of STEP(rnd) (rule R96). -/
theorem execWith_of_ne_rndByte {i : Instr} (h : ∀ x kk, i ≠ .rndByte x kk) (rnd : Byte) (s : State) :
    execWith rnd i s = exec i s := by
  cases i with
  | rndByte x kk => exact absurd rfl (h x kk)
  | _ => rfl

theorem exists_execWith_eq_next (rnd : Byte) (i : Instr) (s : State) : ∃ t, execWith rnd i s = .next t := by
  by_cases h : ∃ x kk, i = .rndByte x kk
  · obtain ⟨x, kk, rfl⟩ := h
    exact ⟨_, rfl⟩
  · rw [execWith_of_ne_rndByte fun x kk he => h ⟨x, kk, he⟩]
    exact ⟨_, exec_eq_next_afterExec i s⟩

/-- Settles O9: every execute part answers a next state, and no other host operation can answer anything else. -/
theorem stepAlwaysAnswersNext : Obligations.StepAlwaysAnswersNext := by
  intro s
  have hstep rnd : ∃ t, stepWith rnd s = .next t := exists_instructionCycle_eq_next (exists_execWith_eq_next rnd) s
  refine ⟨exists_instructionCycle_eq_next (fun i s => ⟨_, exec_eq_next_afterExec i s⟩) s, hstep, fun op => ?_⟩
  cases op with
  | step rnd =>
    obtain ⟨t, ht⟩ := hstep rnd
    exact ⟨(.stepped t.fault, t), by rw [hostStep, ht, stepReply]⟩
  | _ => exact ⟨_, rfl⟩

/-! ## The random byte -/

/-- The cycle depends on the execute stage only for the instruction it fetches and decodes. -/
theorem instructionCycle_congr {run run' : Instr → State → Out} {s : State}
    (h : s.fault = none → s.pc.toNat ≤ 0xFFE → ∀ i, decodeWord s.wordAtPc = .ok i → run i s = run' i s) :
    instructionCycle run s = instructionCycle run' s := by
  cases hs : s.fault with
  | some r => rw [instructionCycle_of_faulted run s r hs, instructionCycle_of_faulted run' s r hs]
  | none =>
    by_cases hpc : s.pc.toNat ≤ 0xFFE
    · cases hd : decodeWord s.wordAtPc with
      | error e => rw [instructionCycle_of_error hs hpc hd, instructionCycle_of_error hs hpc hd]
      | ok i => rw [instructionCycle_of_ok hs hpc hd, instructionCycle_of_ok hs hpc hd, h hs hpc i hd]
    · rw [instructionCycle_of_gt hs hpc, instructionCycle_of_gt hs hpc]

/-- Settles O10. -/
theorem rndReadByCxkkOnly : Obligations.RndReadByCxkkOnly := by
  refine ⟨fun i r1 r2 s hi => ?_, fun r1 r2 s hs => ?_⟩
  · rw [execWith_of_ne_rndByte hi, execWith_of_ne_rndByte hi]
  · have hstep rnd : stepWith rnd s = step s := instructionCycle_congr fun hf hpc i hd =>
      execWith_of_ne_rndByte (fun x kk he => hs hf hpc x kk (he ▸ hd)) rnd s
    exact ⟨(hstep r1).trans (hstep r2).symm, hstep r1⟩

/-! ## A word placed where the next step fetches -/

theorem State.fetchPc_le (s : State) : s.fetchPc.toNat ≤ 0xFFE := by
  unfold State.fetchPc
  split
  · assumption
  · decide

theorem State.placeWord_wordAtPc (s : State) (w : Word) : (s.placeWord w).wordAtPc = w := by
  have hne : s.fetchPc.toNat ≠ s.fetchPc.toNat + 1 := by omega
  simp only [State.wordAtPc, State.placeWord, Memory.get_set, if_neg hne, if_true, wordOfBytes_bytes]

/-- The instruction read from a table word is the decoding of that word (20_memory.md rule R63). -/
theorem decodeWord_of_decodeTableWord {nbits w : Nat} {i : Instr} (h : decodeTableWord nbits w = some i) :
    decodeWord (BitVec.ofNat 16 (w % 2 ^ nbits)) = .ok i := by
  simp only [decodeTableWord, decode, wordOfBytes_bytes] at h
  cases hd : decodeWord (BitVec.ofNat 16 (w % 2 ^ nbits)) with
  | error e => simp [hd, Except.map] at h
  | ok j => simpa [hd, Except.map] using h

/-- Settles O59: nothing stands in the way of fetching the placed word, and it decodes. -/
theorem withFetchWordRunsWord : Obligations.WithFetchWordRunsWord := fun s nbits w _ hd =>
  instructionCycle_of_ok rfl s.fetchPc_le
    ((s.placeWord_wordAtPc (BitVec.ofNat 16 (w % 2 ^ nbits))).symm ▸ decodeWord_of_decodeTableWord hd)

end Sys2Proof.Machine

/-! # The display (41_display.md rules R120 to R122) -/

namespace Sys2Proof.Machine

/-! ## 00E0 -/

@[simp] theorem Framebuffer.pixel_clear (r : Fin 32) (c : Fin 64) : Framebuffer.clear.pixel r c = false := by
  simp [Framebuffer.clear, Framebuffer.pixel]

/-- Settles O22. -/
theorem clsClearsScreen : Obligations.ClsClearsScreen := fun _ =>
  ⟨Framebuffer.clear, rfl, Framebuffer.pixel_clear⟩

/-! ## Positions relative to the sprite's corner -/

/-- How far past `start` the position `p` of an axis of `N` pixels lies, the axis wrapping around (rule R120). -/
def wrapOffset (N start p : Nat) : Nat := (p + N - start % N) % N

/-- The pixel that the loop of DrawSprite touches at distance `k` from the corner is the one at offset `k`. -/
theorem wrapOffset_eq_iff {N : Nat} [NeZero N] (start : Nat) (p : Fin N) {k : Nat} (hk : k < N) :
    wrapOffset N start p = k ↔ p = Fin.ofNat N (start + k) := by
  have hN : 0 < N := NeZero.pos N
  have hq : start % N < N := Nat.mod_lt _ hN
  have hback : (start + wrapOffset N start p) % N = p := by
    calc (start + wrapOffset N start p) % N
        = (start % N + (p + N - start % N)) % N := by rw [wrapOffset, Nat.add_mod_mod, Nat.mod_add_mod]
      _ = (p + N) % N := by rw [Nat.add_sub_cancel' (by omega)]
      _ = p := by rw [Nat.add_mod_right, Nat.mod_eq_of_lt p.isLt]
  rw [Fin.ext_iff, Fin.val_ofNat]
  constructor
  · rintro rfl
    exact hback.symm
  · intro hp
    have hmod : start + wrapOffset N start p ≡ start + k [MOD N] := hback.trans hp
    exact Nat.ModEq.eq_of_lt_of_lt (Nat.ModEq.add_left_cancel' start hmod) (Nat.mod_lt _ hN) hk

/-- Every offset below the axis's length is that of some pixel. -/
theorem exists_wrapOffset_eq {N : Nat} [NeZero N] (start : Nat) {k : Nat} (hk : k < N) :
    ∃ p : Fin N, wrapOffset N start p = k :=
  ⟨_, (wrapOffset_eq_iff start _ hk).2 rfl⟩

/-! ## What a part of DrawSprite's loop does -/

/-- A mask over the offsets from the corner (cx, cy), read at a pixel of the screen. -/
def placed (cx cy : Nat) (mask : Nat → Nat → Bool) (r : Fin 32) (c : Fin 64) : Bool :=
  mask (wrapOffset 32 cy r.val) (wrapOffset 64 cx c.val)

/-- The loop goes from `d` to `d'` by flipping the pixels of the placed mask, each once, and collides exactly where one
of them was on. -/
structure Flips (cx cy : Nat) (mask : Nat → Nat → Bool) (d d' : Framebuffer × Bool) : Prop where
  pixel : ∀ r c, Framebuffer.pixel d'.1 r c = (Framebuffer.pixel d.1 r c ^^ placed cx cy mask r c)
  collision : d'.2 = true ↔
    d.2 = true ∨ ∃ r c, Framebuffer.pixel d.1 r c = true ∧ placed cx cy mask r c = true

/-- The bit at (row, col) of a sprite's bytes, false outside the sprite. -/
def spriteBit (bytes : List Byte) (row col : Nat) : Bool :=
  decide (row < bytes.length) && decide (col < 8) && (bytes.getD row 0).getLsbD (7 - col)

section Loop
variable {cx cy : Nat} {m n k : Nat → Nat → Bool} {d d' d'' : Framebuffer × Bool}

theorem Flips.of_empty (hm : ∀ row col, m row col = false) : Flips cx cy m d d where
  pixel r c := by rw [placed, hm, Bool.xor_false]
  collision := by simp [placed, hm]

/-- Two parts of the loop that touch no pixel in common: the later one finds its pixels as they were at the start. -/
theorem Flips.trans (hm : Flips cx cy m d d') (hn : Flips cx cy n d' d'')
    (hdisj : ∀ row col, m row col = true → n row col = false)
    (hk : ∀ row col, k row col = (m row col || n row col)) : Flips cx cy k d d'' where
  pixel r c := by
    have hor : placed cx cy k r c = (placed cx cy m r c || placed cx cy n r c) := hk _ _
    rw [hn.pixel, hm.pixel, hor, Bool.xor_assoc]
    cases hmr : placed cx cy m r c with
    | false => rw [Bool.false_xor, Bool.false_or]
    | true =>
      have hnr : placed cx cy n r c = false := hdisj _ _ hmr
      rw [hnr, Bool.xor_false, Bool.or_false]
  collision := by
    have hkept : ∀ r c, placed cx cy n r c = true → Framebuffer.pixel d'.1 r c = Framebuffer.pixel d.1 r c := by
      intro r c hnr
      have hmr : placed cx cy m r c = false :=
        Bool.eq_false_iff.2 fun h => Bool.false_ne_true ((hdisj _ _ h).symm.trans hnr)
      rw [hm.pixel, hmr, Bool.xor_false]
    have hlater : (∃ r c, Framebuffer.pixel d'.1 r c = true ∧ placed cx cy n r c = true) ↔
        ∃ r c, Framebuffer.pixel d.1 r c = true ∧ placed cx cy n r c = true :=
      exists_congr fun r => exists_congr fun c => and_congr_left fun h => by rw [hkept r c h]
    rw [hn.collision, hm.collision, hlater]
    simp only [placed, hk, Bool.or_eq_true, and_or_left, exists_or, or_assoc]

/-- One bit flips the pixel at its own place in the sprite. -/
theorem flips_drawBit (b : Byte) {row col : Nat} (hrow : row < 32) (hcol : col < 64) (d : Framebuffer × Bool) :
    Flips cx cy (fun i j => b.getLsbD (7 - col) && decide (i = row ∧ j = col)) d (drawBit cx cy b row col d) where
  pixel r c := by
    rw [pixel_drawBit]
    simp only [placed, wrapOffset_eq_iff _ _ hrow, wrapOffset_eq_iff _ _ hcol]
  collision := by
    rw [collision_drawBit]
    simp only [placed, wrapOffset_eq_iff _ _ hrow, wrapOffset_eq_iff _ _ hcol, Bool.or_eq_true, Bool.and_eq_true,
      decide_eq_true_eq]
    refine or_congr_right ⟨fun ⟨hb, hp⟩ => ⟨_, _, hp, hb, rfl, rfl⟩, ?_⟩
    rintro ⟨_, _, hp, hb, rfl, rfl⟩
    exact ⟨hb, hp⟩

/-- The first `w` columns of one row. -/
theorem flips_drawColumns (b : Byte) {row : Nat} (hrow : row < 32) (d : Framebuffer × Bool) {w : Nat} (hw : w ≤ 64) :
    Flips cx cy (fun i j => decide (i = row) && decide (j < w) && b.getLsbD (7 - j)) d
      ((List.range w).foldl (fun d col => drawBit cx cy b row col d) d) := by
  induction w with
  | zero => exact Flips.of_empty fun i j => by simp
  | succ w ih =>
    rw [List.range_succ, List.foldl_append]
    refine (ih (by omega)).trans (flips_drawBit b hrow (by omega) _) (fun i j h => ?_) fun i j => ?_
    · simp only [Bool.and_eq_true, decide_eq_true_eq] at h
      have hne : ¬ (i = row ∧ j = w) := by omega
      rw [decide_eq_false hne, Bool.and_false]
    · obtain hj | rfl | hj := Nat.lt_trichotomy j w
      · simp [hj, Nat.lt_succ_of_lt hj, Nat.ne_of_lt hj]
      · simp [Bool.and_comm]
      · simp [Nat.ne_of_gt hj, Nat.not_lt.2 (Nat.le_of_lt hj), Nat.not_lt.2 (Nat.succ_le_of_lt hj)]

/-- The rows of a sprite from row `row` of the loop on. -/
theorem flips_drawRows (bytes : List Byte) {row : Nat} (hlen : row + bytes.length ≤ 32) (d : Framebuffer × Bool) :
    Flips cx cy (fun i j => decide (row ≤ i) && spriteBit bytes (i - row) j) d (drawRows cx cy row bytes d) := by
  induction bytes generalizing row d with
  | nil => exact Flips.of_empty fun i j => by simp [spriteBit]
  | cons b bytes ih =>
    rw [List.length_cons] at hlen
    refine (flips_drawColumns b (by omega) d (w := 8) (by omega)).trans (ih (row := row + 1) (by omega) _)
      (fun i j h => ?_) fun i j => ?_
    · simp only [Bool.and_eq_true, decide_eq_true_eq] at h
      have hlt : ¬ row + 1 ≤ i := by omega
      rw [decide_eq_false hlt, Bool.false_and]
    · obtain hi | rfl | hi := Nat.lt_trichotomy i row
      · simp [Nat.ne_of_lt hi, Nat.not_le.2 hi, Nat.not_le.2 (Nat.lt_succ_of_lt hi)]
      · simp [spriteBit]
      · have hsub : i - row = (i - (row + 1)) + 1 := by omega
        simp [spriteBit, hsub, Nat.ne_of_gt hi, Nat.le_of_lt hi, Nat.succ_le_of_lt hi]

end Loop

/-- DrawSprite flips the pixels the sprite's 1 bits fall on. -/
theorem flips_drawSprite (fb : Framebuffer) (cx cy : Byte) {bytes : List Byte} (hlen : bytes.length ≤ 15) :
    Flips cx.toNat cy.toNat (spriteBit bytes) (fb, false) (drawSprite fb cx cy bytes) := by
  have h := flips_drawRows (cx := cx.toNat) (cy := cy.toNat) bytes (row := 0) (by omega) (fb, false)
  simpa [drawSprite] using h

section Sprite
variable (fb : Framebuffer) (cx cy : Byte) {bytes : List Byte}

theorem pixel_drawSprite (hlen : bytes.length ≤ 15) (r : Fin 32) (c : Fin 64) :
    Framebuffer.pixel (drawSprite fb cx cy bytes).1 r c =
      (fb.pixel r c ^^ placed cx.toNat cy.toNat (spriteBit bytes) r c) :=
  (flips_drawSprite fb cx cy hlen).pixel r c

theorem collision_drawSprite (hlen : bytes.length ≤ 15) :
    (drawSprite fb cx cy bytes).2 = true ↔ ∃ r c, fb.pixel r c = true ∧
      placed cx.toNat cy.toNat (spriteBit bytes) r c = true := by
  simpa using (flips_drawSprite fb cx cy hlen).collision

end Sprite

/-- Settles O23. -/
theorem spritePixelsAndCollision : Obligations.SpritePixelsAndCollision := fun fb cx cy _ hlen =>
  ⟨pixel_drawSprite fb cx cy hlen, collision_drawSprite fb cx cy hlen⟩

/-! ## Drawing twice -/

theorem Byte.ne_zero_iff_exists_bit (b : Byte) : b ≠ 0 ↔ ∃ col < 8, b.getLsbD (7 - col) = true := by
  constructor
  · intro hb
    obtain ⟨k, hk⟩ : ∃ k, b.getLsbD k = true := by
      by_contra! hno
      exact hb (BitVec.eq_of_getLsbD_eq fun k _ => by simpa using hno k)
    have hlt : k < 8 := BitVec.lt_of_getLsbD hk
    exact ⟨7 - k, by omega, by rwa [Nat.sub_sub_self (by omega)]⟩
  · rintro ⟨col, -, hcol⟩ rfl
    simp at hcol

/-- The sprite is smaller than the screen, so every 1 bit it has falls on some pixel. -/
theorem exists_spriteBit_iff (cx cy : Nat) {bytes : List Byte} (hlen : bytes.length ≤ 15) :
    (∃ r c, placed cx cy (spriteBit bytes) r c = true) ↔ ∃ b ∈ bytes, b ≠ 0 := by
  simp only [placed, spriteBit, Bool.and_eq_true, decide_eq_true_eq, Byte.ne_zero_iff_exists_bit]
  constructor
  · rintro ⟨r, c, ⟨hrow, hcol⟩, hbit⟩
    rw [List.getD_eq_getElem _ _ hrow] at hbit
    exact ⟨_, List.getElem_mem hrow, _, hcol, hbit⟩
  · rintro ⟨b, hb, col, hcol, hbit⟩
    obtain ⟨row, hrow, rfl⟩ := List.getElem_of_mem hb
    obtain ⟨r, hr⟩ := exists_wrapOffset_eq (N := 32) cy (k := row) (by omega)
    obtain ⟨c, hc⟩ := exists_wrapOffset_eq (N := 64) cx (k := col) (by omega)
    refine ⟨r, c, ?_⟩
    rw [hr, hc, List.getD_eq_getElem _ _ hrow]
    exact ⟨⟨hrow, hcol⟩, hbit⟩

/-- Settles O24: the two XORs cancel, and on a clear screen the second draw finds exactly the sprite's bits on. -/
theorem drawTwiceRestores : Obligations.DrawTwiceRestores := by
  intro fb cx cy bytes hlen
  refine ⟨Framebuffer.ext_pixel fun r c => ?_, fun hclear => ⟨?_, ?_⟩⟩
  · rw [pixel_drawSprite _ cx cy hlen, pixel_drawSprite fb cx cy hlen, Bool.xor_assoc, Bool.xor_self, Bool.xor_false]
  · rw [← Bool.not_eq_true, collision_drawSprite fb cx cy hlen]
    simp [hclear]
  · simp only [collision_drawSprite _ cx cy hlen, pixel_drawSprite fb cx cy hlen, hclear, Bool.false_xor, and_self]
    exact exists_spriteBit_iff cx.toNat cy.toNat hlen

/-! ## Dxyn -/

/-- Dxyn on a sprite that is not inside memory changes the fault record alone (rule R122). -/
theorem State.afterExec_drw_of_not_runsInstr {s : State} {x y n : Nibble} (h : ¬ s.RunsInstr (.drw x y n)) :
    s.afterExec (.drw x y n) = s.raise .memBounds (some (encode (.drw x y n))) (max s.i.toNat 4096) := by
  have h' : ¬ (s.i.toNat < 4096 ∧ s.i.toNat + n.toNat ≤ 4096) := h
  simp only [State.afterExec, exec, execDrw, State.spriteBytes_eq, if_neg h']

/-- Settles O25. -/
theorem drwDrawsAndSetsFlag : Obligations.DrwDrawsAndSetsFlag := by
  intro x y n s
  rw [exec_eq_next_afterExec]
  constructor
  · intro h
    refine ⟨_, rfl, ?_⟩
    rw [State.afterExec_drw h]
    exact ⟨rfl, rfl, (State.getV_setV _ _ _ _).trans (if_pos rfl),
      fun r hr => (State.getV_setV _ _ _ _).trans (if_neg hr)⟩
  · intro h
    rw [State.afterExec_drw_of_not_runsInstr h]
    rfl

end Sys2Proof.Machine

/-! # Jumps, calls and returns (42_flow.md) -/

namespace Sys2Proof.Machine

/-! ## Jumps -/

@[simp] theorem addrOperand_toNat (nnn : Addr12) : (addrOperand nnn).toNat = nnn.toNat :=
  BitVec.toNat_setWidth_of_le (by decide)

/-- The numeric form of `addrOperand` that some statements write out. -/
theorem addrOperand_eq_ofNat (nnn : Addr12) : addrOperand nnn = BitVec.ofNat 16 nnn.toNat :=
  (BitVec.ofNat_toNat 16 nnn).symm

/-- The sum of Bnnn as a number: 12 bits and 8 bits stay below 65536 (rule R144). -/
theorem addrOperand_add_byteOperand_toNat (nnn : Addr12) (b : Byte) :
    (addrOperand nnn + byteOperand b).toNat = nnn.toNat + b.toNat := by
  have hn := nnn.isLt
  have hb := b.isLt
  rw [addrOperand_add_byteOperand, BitVec.toNat_ofNat]
  omega

/-- Settles O28: both jumps write PC alone, and neither target wraps. -/
theorem jumpsSetPc : Obligations.JumpsSetPc := fun nnn s =>
  ⟨⟨_, rfl, rfl, addrOperand_toNat nnn⟩, ⟨_, rfl, rfl, addrOperand_add_byteOperand_toNat nnn (s.getV 0)⟩⟩

/-! ## Calls and returns -/

section CallStack
variable {s : State} (nnn : Addr12)

/-- 00EE on an empty stack writes the fault record alone (rule R141). -/
theorem State.afterExec_ret_of_empty (h : ¬ 0 < s.sp.val) :
    s.afterExec .ret = s.raise .stackUnderflow (some (encode .ret)) 0 := by
  simp only [State.afterExec, exec, execRet, State.pop_of_empty s h]

/-- 2nnn on a full stack writes the fault record alone (rule R143). -/
theorem State.afterExec_call_of_full (h : ¬ s.sp.val < 16) :
    s.afterExec (.call nnn) = s.raise .stackOverflow (some (encode (.call nnn))) 0 := by
  simp only [State.afterExec, exec, execCall, State.push_of_full s _ h]

/-- A return right after a call pops the entry the call pushed; that entry stays behind, dead (10_state.md rules R30
and R31). -/
theorem State.afterExec_ret_afterExec_call (h : s.sp.val < 16) :
    (s.afterExec (.call nnn)).afterExec .ret =
      { s with stack := s.stack.set s.sp.val (s.pc + 2) h, pc := s.pc + 2 } := by
  have hpos : 0 < (s.afterExec (.call nnn)).sp.val := by
    rw [State.afterExec_call h]
    exact Nat.succ_pos _
  rw [State.afterExec_ret hpos]
  simp [State.afterExec_call h]

end CallStack

/-- Settles O26. -/
theorem retPopsReturnAddress : Obligations.RetPopsReturnAddress := by
  intro s
  rw [exec_eq_next_afterExec]
  constructor
  · intro hpos
    rw [State.afterExec_ret hpos]
  · intro hempty
    rw [State.afterExec_ret_of_empty (Nat.not_lt.2 hempty.le)]
    rfl

/-- Settles O27. -/
theorem callPushesReturnAddress : Obligations.CallPushesReturnAddress := by
  intro nnn s
  rw [exec_eq_next_afterExec]
  constructor
  · intro hroom
    rw [State.afterExec_call hroom, addrOperand_eq_ofNat]
  · intro hfull
    rw [State.afterExec_call_of_full nnn (Nat.not_lt.2 hfull.ge)]
    rfl

/-- Settles O29: the two instructions together write PC and the entry at the old depth, which is above every live one. -/
theorem returnUndoesCall : Obligations.ReturnUndoesCall := by
  intro nnn s hroom
  refine ⟨_, _, exec_eq_next_afterExec _ _, exec_eq_next_afterExec _ _, ?_⟩
  rw [State.afterExec_ret_afterExec_call nnn hroom]
  exact ⟨rfl, fun k hk => Vector.getElem_set_ne hroom _ hk.ne'⟩

end Sys2Proof.Machine

/-! # Conditional skips (43_skip.md) -/

namespace Sys2Proof.Machine

/-! ## The effect of a skip -/

section SkipEffect
variable (s : State)

/-- The skip's test is a Boolean; a statement gives its condition as a proposition (rule R160). -/
theorem State.skipIf_of_iff {c : Bool} {P : Prop} [Decidable P] (h : c = true ↔ P) :
    s.skipIf c = { s with pc := if P then s.pc + 4 else s.pc + 2 } :=
  congrArg s.setPc (if_congr h rfl rfl)

/-- The complementary skip goes where the other does not. -/
theorem State.skipIf_not (c : Bool) : s.skipIf (!c) = { s with pc := if c = true then s.pc + 2 else s.pc + 4 } := by
  cases c <;> rfl

end SkipEffect

/-! ## The instructions -/

theorem State.afterExec_skp (s : State) (x : Nibble) :
    s.afterExec (.skp x) = s.skipIf (s.isPressed (s.getV x).toNat) := rfl

/-- Settles O31: each test decides its condition. -/
theorem byteAndRegisterSkips : Obligations.ByteAndRegisterSkips := by
  intro x y kk s
  simp only [exec_eq_next_afterExec, State.afterExec_seByte, State.afterExec_sneByte, State.afterExec_seReg,
    State.afterExec_sneReg]
  exact ⟨congrArg _ (s.skipIf_of_iff beq_iff_eq), congrArg _ (s.skipIf_of_iff bne_iff_ne),
    congrArg _ (s.skipIf_of_iff beq_iff_eq), congrArg _ (s.skipIf_of_iff bne_iff_ne)⟩

/-- Settles O32: the latch answers for a code below 16, and no key has a code of 16 or more. -/
theorem keySkips : Obligations.KeySkips := by
  intro x s
  simp only [exec_eq_next_afterExec, State.afterExec_skp, State.afterExec_sknp]
  constructor
  · intro hcode
    rw [State.isPressed_of_lt s _ hcode, State.skipIf_not]
    exact ⟨rfl, rfl⟩
  · intro hcode
    rw [State.isPressed_of_ge s _ (Nat.not_lt.2 hcode)]
    exact ⟨rfl, rfl⟩

end Sys2Proof.Machine

/-! # Registers and the ALU (44_alu.md) -/

namespace Sys2Proof.Machine

/-! ## What the register writes of an instruction leave in each register

One `if` per write, the last write outermost: where x = F, it is the one that VF keeps (rule R181). -/

section RegisterReads
variable (s : State) (x r : Nibble) (b : Byte) (c : Bool)

@[simp] theorem State.getV_advance : s.advance.getV r = s.getV r := rfl

@[simp] theorem State.getV_setFlag : (s.setFlag c).getV r = if r = 0xF then flagByte c else s.getV r :=
  State.getV_setV s flagReg r (flagByte c)

@[simp] theorem State.getV_resultThenFlag :
    (s.resultThenFlag x b c).getV r = if r = 0xF then flagByte c else if r = x then b else s.getV r := by
  rw [State.resultThenFlag, State.getV_setFlag, State.getV_setV]

@[simp] theorem State.getV_flagThenResult :
    (s.flagThenResult x c b).getV r = if r = x then b else if r = 0xF then flagByte c else s.getV r := by
  rw [State.flagThenResult, State.getV_setV, State.getV_setFlag]

@[simp] theorem State.getV_resultThenVfReset :
    (s.resultThenVfReset x b).getV r =
      if s.cfg.quirkVfReset = true ∧ r = 0xF then 0 else if r = x then b else s.getV r := by
  unfold State.resultThenVfReset
  split
  · next hq => simp only [State.getV_setFlag, State.getV_setV, hq, true_and]; rfl
  · next hq => rw [State.getV_setV, if_neg (mt And.left hq)]

end RegisterReads

/-! ## Results and flags as numbers -/

section Numbers
variable (a b v : Byte)

theorem flagByte_carry : flagByte (carry a b) = if a.toNat + b.toNat > 255 then 1 else 0 :=
  if_congr decide_eq_true_iff rfl rfl

theorem flagByte_notBorrow : flagByte (notBorrow a b) = if a.toNat ≥ b.toNat then 1 else 0 :=
  if_congr decide_eq_true_iff rfl rfl

theorem toNat_flagByte (c : Bool) : (flagByte c).toNat = c.toNat := by cases c <;> rfl

theorem toNat_flagByte_shiftedOutRight : (flagByte (shiftedOutRight v)).toNat = v.toNat % 2 := by
  rw [toNat_flagByte, shiftedOutRight, BitVec.getLsbD, Nat.toNat_testBit, Nat.pow_zero, Nat.div_one]

/-- Bit 7 is the top bit of a byte, so nothing is left to reduce above it. -/
theorem toNat_flagByte_shiftedOutLeft : (flagByte (shiftedOutLeft v)).toNat = v.toNat / 128 := by
  rw [toNat_flagByte, shiftedOutLeft, BitVec.getLsbD, Nat.toNat_testBit]
  omega

/-- The difference as rules R190 and R192 write it: 256 is added first, so the natural subtraction stays exact. -/
theorem Byte.toNat_sub : (a - b).toNat = (a.toNat + 256 - b.toNat) % 256 := by
  rw [BitVec.toNat_sub]
  omega

theorem Byte.toNat_shiftRight_one : (v >>> 1).toNat = v.toNat / 2 := by
  rw [BitVec.toNat_ushiftRight, Nat.shiftRight_one]

theorem Byte.toNat_shiftLeft_one : (v <<< 1).toNat = v.toNat * 2 % 256 := by
  rw [BitVec.toNat_shiftLeft, Nat.shiftLeft_eq]

end Numbers

/-! ## Instructions that write Vx alone -/

/-- Settles O33. -/
theorem loadImmediateAndCopy : Obligations.LoadImmediateAndCopy := fun x y kk s =>
  ⟨⟨_, rfl, rfl, fun r => State.getV_setV s x r kk⟩, ⟨_, rfl, rfl, fun r => State.getV_setV s x r (s.getV y)⟩⟩

/-- Settles O34: one register write, so VF is written only as the destination. -/
theorem addImmediateWritesNoFlag : Obligations.AddImmediateWritesNoFlag := by
  intro x kk s
  refine ⟨_, rfl, rfl, ?_, fun r hr => ?_⟩
  · rw [State.getV_advance, State.getV_setV, if_pos rfl, BitVec.toNat_add]
  · rw [State.getV_advance, State.getV_setV, if_neg hr]

@[simp] theorem State.getV_applyRnd (s : State) (rnd : Byte) (x r : Nibble) (kk : Byte) :
    (s.applyRnd rnd x kk).getV r = if r = x then rnd &&& kk else s.getV r :=
  State.getV_setV s x r (rnd &&& kk)

/-- Settles O39: STEP(rnd) and the model's own step write the same state but for the byte they take. -/
theorem randomByteMasked : Obligations.RandomByteMasked := fun x kk s =>
  ⟨fun rnd => ⟨_, rfl, rfl, fun r => s.getV_applyRnd rnd x r kk⟩,
    ⟨_, rfl, rfl, fun r => s.getV_applyRnd (Config.rndByte s.draws) x r kk⟩⟩

/-! ## Instructions that write VF, if at all, after Vx -/

/-- Settles O35: the three operations differ in the result alone. -/
theorem bitwiseOpsAndVfReset : Obligations.BitwiseOpsAndVfReset := by
  intro x y s out
  have hout {i : Instr} {b : Byte} (h : exec i s = .next (s.resultThenVfReset x b).advance) : out i b :=
    ⟨_, h, congrArg State.advance (s.resultThenVfReset_frame x b), fun r => s.getV_resultThenVfReset x r b⟩
  exact ⟨hout rfl, hout rfl, hout rfl⟩

/-- Settles O36: VF is written last. -/
theorem addRegistersSetsCarry : Obligations.AddRegistersSetsCarry := by
  intro x y s
  refine ⟨_, rfl, rfl, ?_⟩
  simp only [State.getV_advance, State.getV_resultThenFlag, if_true]
  refine ⟨flagByte_carry _ _, fun hx => ?_, fun r hrx hrf => ?_⟩
  · rw [if_neg hx, BitVec.toNat_add]
  · rw [if_neg hrf, if_neg hrx]

/-! ## Instructions that write VF before Vx -/

/-- What the subtractions and the shifts share: VF holds the flag unless the result is written over it. -/
theorem State.flagThenResult_reads (s : State) (x : Nibble) (c : Bool) (b : Byte) :
    let t := (s.flagThenResult x c b).advance
    t.getV x = b ∧ (x ≠ 0xF → t.getV 0xF = flagByte c) ∧ ∀ r, r ≠ x → r ≠ 0xF → t.getV r = s.getV r := by
  simp only [State.getV_advance, State.getV_flagThenResult, if_true]
  exact ⟨trivial, fun hx => if_neg hx.symm, fun r hrx hrf => by rw [if_neg hrx, if_neg hrf]⟩

/-- Settles O37: the two subtractions differ in which operand is taken from which. -/
theorem subtractSetsNotBorrow : Obligations.SubtractSetsNotBorrow := by
  intro x y s out
  have hout {i : Instr} {a b : Byte} (h : exec i s = .next (s.flagThenResult x (notBorrow a b) (a - b)).advance) :
      out i a b := by
    obtain ⟨hres, hflag, hkeep⟩ := s.flagThenResult_reads x (notBorrow a b) (a - b)
    exact ⟨_, h, rfl, by rw [hres, Byte.toNat_sub], fun hx => by rw [hflag hx, flagByte_notBorrow], hkeep⟩
  exact ⟨hout rfl, hout rfl⟩

/-- Settles O38: the two shifts differ in the result and in the bit shifted out. -/
theorem shiftsSetShiftedOutBit : Obligations.ShiftsSetShiftedOutBit := by
  intro x y s src out
  have hout {i : Instr} {c : Bool} {b : Byte} {result flag : Nat}
      (h : exec i s = .next (s.flagThenResult x c b).advance) (hb : b.toNat = result)
      (hc : (flagByte c).toNat = flag) : out i result flag := by
    obtain ⟨hres, hflag, hkeep⟩ := s.flagThenResult_reads x c b
    exact ⟨_, h, rfl, by rw [hres, hb], fun hx => by rw [hflag hx, hc], hkeep⟩
  exact ⟨hout rfl (Byte.toNat_shiftRight_one _) (toNat_flagByte_shiftedOutRight _),
    hout rfl (Byte.toNat_shiftLeft_one _) (toNat_flagByte_shiftedOutLeft _)⟩

end Sys2Proof.Machine

/-! # The index register and memory (45_index_memory.md) -/

namespace Sys2Proof.Machine

/-! ## Writes of I alone -/

@[simp] theorem byteOperand_toNat (b : Byte) : (byteOperand b).toNat = b.toNat :=
  BitVec.toNat_setWidth_of_le (by decide)

/-- Settles O40: both instructions write I and PC alone; only the sum of Fx1E can wrap. -/
theorem indexRegisterWrites : Obligations.IndexRegisterWrites := fun nnn x s =>
  ⟨⟨_, rfl, rfl, addrOperand_toNat nnn⟩,
    ⟨_, rfl, rfl, (BitVec.toNat_add _ _).trans (by rw [byteOperand_toNat])⟩⟩

/-- Fx29 with Vx above 15 changes the fault record alone (rule R222). -/
theorem State.afterExec_ldFVx_of_gt {s : State} {x : Nibble} (h : 0xF < (s.getV x).toNat) :
    s.afterExec (.ldFVx x) = s.raise .fontDigit (some (encode (.ldFVx x))) 0 := by
  simp only [State.afterExec, exec, execLdFVx, fontAddr, if_pos h]

/-- Settles O41: the address of a glyph is at most 75, so it does not wrap. -/
theorem fontPointerOrFault : Obligations.FontPointerOrFault := by
  intro x s
  rw [exec_eq_next_afterExec]
  constructor
  · intro hdigit
    refine ⟨_, rfl, ?_⟩
    rw [State.afterExec_ldFVx hdigit]
    refine ⟨rfl, ?_⟩
    simp only [State.advance_i, State.setI_i, BitVec.toNat_ofNat]
    omega
  · intro hlarge
    rw [State.afterExec_ldFVx_of_gt hlarge]
    rfl

/-! ## What the accesses through I leave -/

/-- The record of an instruction whose data access is out of bounds: the first such address is `max I 4096`
(20_memory.md rule R79). -/
theorem State.afterExec_fault_of_memBounds {s : State} {i : Instr} (hc : canRaise i = some .memBounds)
    (h : ¬ s.RunsInstr i) :
    (s.afterExec i).fault =
      some ⟨.memBounds, s.pc, some (encode i), BitVec.ofNat 17 (max s.i.toNat 4096)⟩ := by
  rw [State.afterExec_fault_of_not_runsInstr h, State.execFault, hc]
  rfl

/-- The index update as a number, mode by mode (rule R226). -/
theorem State.toNat_indexInc_i (s : State) (x : Nibble) :
    (s.indexInc s.i.toNat x).i.toNat =
      match s.cfg.quirkIndexInc with
      | .none => s.i.toNat
      | .xPlus1 => (s.i.toNat + x.toNat + 1) % 65536
      | .x => (s.i.toNat + x.toNat) % 65536 := by
  cases hq : s.cfg.quirkIndexInc <;> simp only [State.indexInc, hq, State.setI_i, BitVec.toNat_ofNat]

section Accesses
variable {s : State} {x r : Nibble}

/-- The byte of `regsUpTo` for a register it holds. -/
theorem State.getElem_regsUpTo (h : r.toNat < (s.regsUpTo x).length) : (s.regsUpTo x)[r.toNat] = s.getV r := by
  simp [State.regsUpTo]

/-- A byte's decimal digits fit their bytes (rule R223). -/
theorem toNat_bcdDigits (v : Byte) :
    (bcdDigits v).map BitVec.toNat = [v.toNat / 100, v.toNat / 10 % 10, v.toNat % 10] := by
  have hv := v.isLt
  simp only [bcdDigits, List.map_cons, List.map_nil, BitVec.toNat_ofNat, List.cons.injEq, and_true]
  omega

/-- After Fx33 the three bytes from I up are the decimal digits of Vx, hundreds first (rule R223). -/
theorem State.toNat_get_afterExec_ldBVx (h : s.i.toNat + 2 < 4096) {j : Nat} (hj : j < 3) :
    ((s.afterExec (.ldBVx x)).mem.get (s.i.toNat + j)).toNat =
      [(s.getV x).toNat / 100, (s.getV x).toNat / 10 % 10, (s.getV x).toNat % 10][j] := by
  have hlt : j < (bcdDigits (s.getV x)).length := hj
  rw [State.afterExec_ldBVx h]
  calc ((s.mem.setList s.i.toNat (bcdDigits (s.getV x))).get (s.i.toNat + j)).toNat
      = ((bcdDigits (s.getV x))[j]).toNat := congrArg BitVec.toNat (Memory.get_setList_add _ _ _ hlt)
    _ = ((bcdDigits (s.getV x)).map BitVec.toNat)[j]'(by rwa [List.length_map]) := (List.getElem_map _).symm
    _ = _ := by simp only [toNat_bcdDigits]

/-- Fx33 leaves every byte outside I..I+2 as it was (rule R223). -/
theorem State.get_afterExec_ldBVx_of_outside (h : s.i.toNat + 2 < 4096) {a : Nat}
    (ha : a < s.i.toNat ∨ s.i.toNat + 2 < a) : (s.afterExec (.ldBVx x)).mem.get a = s.mem.get a := by
  rw [State.afterExec_ldBVx h]
  exact Memory.get_setList_of_outside (bcdDigits (s.getV x)) s.mem ha

/-- After Fx55 the bytes from I up are the registers up to Vx (rule R224). -/
theorem State.get_afterExec_stRegs (h : s.i.toNat + x.toNat < 4096) (hr : r.toNat ≤ x.toNat) :
    (s.afterExec (.stRegs x)).mem.get (s.i.toNat + r.toNat) = s.getV r := by
  have hlt : r.toNat < (s.regsUpTo x).length := by rw [State.length_regsUpTo]; omega
  rw [State.afterExec_stRegs h]
  exact (Memory.get_setList_add _ _ _ hlt).trans (State.getElem_regsUpTo hlt)

/-- Fx55 leaves every byte outside I..I+x as it was (rule R224). -/
theorem State.get_afterExec_stRegs_of_outside (h : s.i.toNat + x.toNat < 4096) {a : Nat}
    (ha : a < s.i.toNat ∨ s.i.toNat + x.toNat < a) :
    (s.afterExec (.stRegs x)).mem.get a = s.mem.get a := by
  rw [State.afterExec_stRegs h]
  exact Memory.get_setList_of_outside _ _ (by rw [State.length_regsUpTo]; exact ha)

/-- After Fx65 each register up to Vx is its byte from I up, and each register above is as it was (rule R225). -/
theorem State.getV_afterExec_ldRegs (h : s.i.toNat + x.toNat < 4096) (r : Nibble) :
    (s.afterExec (.ldRegs x)).getV r =
      if r.toNat ≤ x.toNat then s.mem.get (s.i.toNat + r.toNat) else s.getV r := by
  have hlen : 0 + (s.loadBytes x).length ≤ 16 := by rw [State.length_loadBytes]; omega
  rw [State.afterExec_ldRegs h]
  refine (State.getV_setRegs _ s 0 hlen r).trans ?_
  simp [State.loadBytes]

/-- Fx33 writes memory and PC alone. -/
theorem State.afterExec_ldBVx_frame (h : s.i.toNat + 2 < 4096) :
    s.afterExec (.ldBVx x) = { s with mem := (s.afterExec (.ldBVx x)).mem, pc := s.pc + 2 } := by
  rw [State.afterExec_ldBVx h]
  rfl

/-- Fx55 writes memory, I and PC alone. -/
theorem State.afterExec_stRegs_frame (h : s.i.toNat + x.toNat < 4096) :
    s.afterExec (.stRegs x) =
      { s with mem := (s.afterExec (.stRegs x)).mem, i := (s.indexInc s.i.toNat x).i, pc := s.pc + 2 } := by
  rw [State.afterExec_stRegs h]
  rfl

/-- Fx65 writes registers, I and PC alone. -/
theorem State.afterExec_ldRegs_frame (h : s.i.toNat + x.toNat < 4096) :
    s.afterExec (.ldRegs x) =
      { s with v := (s.afterExec (.ldRegs x)).v, i := (s.indexInc s.i.toNat x).i, pc := s.pc + 2 } := by
  rw [State.afterExec_ldRegs h, State.setRegs_frame]
  rfl

end Accesses

/-! ## The accesses through I, in bounds and out of bounds -/

/-- Settles O42: three bytes are stored, so the run is in bounds exactly where I + 2 is. -/
theorem bcdStoresDigits : Obligations.BcdStoresDigits := by
  intro x s
  refine ⟨fun hin => ⟨_, exec_eq_next_afterExec _ _, State.afterExec_ldBVx_frame hin, ?_, ?_, ?_,
      fun _ ha => State.get_afterExec_ldBVx_of_outside hin ha⟩,
    fun hout => ⟨_, exec_eq_next_afterExec _ _, State.afterExec_fault_of_memBounds rfl (Nat.not_lt.2 hout)⟩⟩
  · exact State.toNat_get_afterExec_ldBVx hin (j := 0) (by decide)
  · exact State.toNat_get_afterExec_ldBVx hin (j := 1) (by decide)
  · exact State.toNat_get_afterExec_ldBVx hin (j := 2) (by decide)

/-- Settles O43: a run of x + 1 stores, and the index update from the I before them. -/
theorem storeRegistersThroughI : Obligations.StoreRegistersThroughI := by
  intro x s
  refine ⟨fun hin => ⟨_, exec_eq_next_afterExec _ _, ?_, fun _ hj => State.get_afterExec_stRegs hin hj,
      fun _ ha => State.get_afterExec_stRegs_of_outside hin ha, ?_⟩,
    fun hout => ⟨_, exec_eq_next_afterExec _ _, State.afterExec_fault_of_memBounds rfl (Nat.not_lt.2 hout)⟩⟩
  · rw [State.afterExec_stRegs_frame hin]
  · rw [State.afterExec_stRegs_frame hin]
    exact s.toNat_indexInc_i x

/-- Settles O44: a run of x + 1 loads, and the index update from the I before them. -/
theorem loadRegistersThroughI : Obligations.LoadRegistersThroughI := by
  intro x s
  refine ⟨fun hin => ⟨_, exec_eq_next_afterExec _ _, ?_, State.getV_afterExec_ldRegs hin, ?_⟩,
    fun hout => ⟨_, exec_eq_next_afterExec _ _, State.afterExec_fault_of_memBounds rfl (Nat.not_lt.2 hout)⟩⟩
  · rw [State.afterExec_ldRegs_frame hin]
  · rw [State.afterExec_ldRegs_frame hin]
    exact s.toNat_indexInc_i x

/-- Settles O45: the load reads through the same I the bytes the store left there. -/
theorem loadAfterStoreRestoresRegisters : Obligations.LoadAfterStoreRestoresRegisters := by
  intro x s w hin
  refine ⟨_, _, exec_eq_next_afterExec _ _, exec_eq_next_afterExec _ _, fun j => ?_⟩
  rw [State.getV_afterExec_ldRegs (s := { s.afterExec (.stRegs x) with v := w, i := s.i }) hin]
  split
  · next hj => exact State.get_afterExec_stRegs hin hj
  · rfl

end Sys2Proof.Machine

/-! # The timers and the key wait (46_timer_key.md) -/

namespace Sys2Proof.Machine

/-! ## Fx07, Fx15 and Fx18 -/

/-- Settles O46. -/
theorem timerRegisterMoves : Obligations.TimerRegisterMoves := fun x s =>
  ⟨⟨_, rfl, rfl, fun r => State.getV_setV s x r s.dt⟩, rfl, rfl⟩

/-! ## Fx0A -/

section KeyWait
variable {s : State}

/-- The lowest index wins (rule R251): `pressedKey` searches the codes from 0 up. -/
theorem State.pressedKey_of_least {k : Fin 16} (hk : s.keys[k.val] = true)
    (hlow : ∀ j : Fin 16, j.val < k.val → s.keys[j.val] = false) : s.pressedKey = some k.val := by
  refine List.find?_range_eq_some.2 ⟨?_, List.mem_range.2 k.isLt, fun j hj => ?_⟩
  · rw [State.isPressed_of_lt s k.val k.isLt, hk]
  · have hj16 : j < 16 := hj.trans k.isLt
    rw [State.isPressed_of_lt s j hj16, hlow ⟨j, hj16⟩ hj, Bool.not_false]

theorem State.pressedKey_of_no_key (h : ∀ k : Fin 16, s.keys[k.val] = false) : s.pressedKey = none :=
  s.pressedKey_none.2 fun j hj => (s.isPressed_of_lt j hj).trans (h ⟨j, hj⟩)

end KeyWait

/-- Settles O47: with a key pressed Fx0A is a write of Vx, without one it polls again. -/
theorem keyWaitPollsLowestKey : Obligations.KeyWaitPollsLowestKey := by
  intro x s
  rw [exec_eq_next_afterExec]
  constructor
  · intro k hk hlow
    rw [State.afterExec_ldVxK_of_some s x (State.pressedKey_of_least hk hlow)]
    exact ⟨_, rfl, rfl, fun r => State.getV_setV s x r (BitVec.ofNat 8 k.val)⟩
  · intro hnone
    rw [State.afterExec_ldVxK_of_none s x (State.pressedKey_of_no_key hnone)]

end Sys2Proof.Machine

/-! # Fault entry and the host's operations (60_exceptions.md) -/

namespace Sys2Proof.Machine

/-! ## What a STEP can do -/

/-- The states STEP(rnd) can leave, by the outcome of the cycle (30_encoding.md rule R95). -/
inductive State.StepTo (rnd : Byte) (s : State) : State → Prop where
  | faulted {r : FaultRecord} (hs : s.fault = some r) : StepTo rnd s s
  | fetchFault (hs : s.fault = none) (hpc : ¬ s.pc.toNat ≤ 0xFFE) :
      StepTo rnd s (s.raise .memBounds none (max s.pc.toNat 4096))
  | decodeFault (hs : s.fault = none) (hpc : s.pc.toNat ≤ 0xFFE) {e : DecodeError}
      (hd : decodeWord s.wordAtPc = .error e) : StepTo rnd s (s.raise .unknownOpcode (some s.wordAtPc) 0)
  | executed (hs : s.fault = none) (hpc : s.pc.toNat ≤ 0xFFE) {i : Instr} (hd : decodeWord s.wordAtPc = .ok i)
      {t : State} (ht : execWith rnd i s = .next t) : StepTo rnd s t

theorem State.stepTo_of_stepWith {rnd : Byte} {s t : State} (ht : stepWith rnd s = .next t) : s.StepTo rnd t := by
  cases hs : s.fault with
  | some r =>
    cases (instructionCycle_of_faulted _ s r hs).symm.trans ht
    exact .faulted hs
  | none =>
    by_cases hpc : s.pc.toNat ≤ 0xFFE
    · cases hd : decodeWord s.wordAtPc with
      | error e =>
        cases (instructionCycle_of_error hs hpc hd).symm.trans ht
        exact .decodeFault hs hpc hd
      | ok i => exact .executed hs hpc hd ((instructionCycle_of_ok hs hpc hd).symm.trans ht)
    · cases (instructionCycle_of_gt hs hpc).symm.trans ht
      exact .fetchFault hs hpc

/-! ## The fault a STEP raises -/

section RaisedFault
variable {s t : State} {rnd : Byte} {i : Instr} {r : FaultRecord}

/-- A record that an execute stage leaves in a running block is the one of its instruction. -/
theorem State.execFault_of_execWith (hs : s.fault = none) (ht : execWith rnd i s = .next t) (hr : t.fault = some r) :
    s.execFault i = some r := by
  have hexec (he : exec i s = .next t) : s.execFault i = some r := by
    obtain rfl := State.afterExec_eq he
    by_cases hrun : s.RunsInstr i
    · rw [(State.effect_afterExec hrun).fault_eq, hs] at hr
      cases hr
    · rw [← hr, State.afterExec_fault_of_not_runsInstr hrun]
  cases i with
  | rndByte x kk => cases ht; cases hs.symm.trans hr
  | _ => exact hexec ht

/-- The record of an instruction holds the cause rule R272 gives the instruction. -/
theorem State.canRaise_of_execFault (h : s.execFault i = some r) : canRaise i = some r.cause := by
  obtain ⟨c, hc, rfl⟩ := Option.map_eq_some_iff.1 h
  exact hc

/-- The record of an instruction holds the instruction's own word. -/
theorem State.word_of_execFault (h : s.execFault i = some r) : r.word = some (encode i) := by
  obtain ⟨c, -, rfl⟩ := Option.map_eq_some_iff.1 h
  rfl

end RaisedFault

/-- Settles O11, stage by stage: the word in the record of an execute fault is the fetched one, since encoding undoes
decoding. -/
theorem faultEntryRecord : Obligations.FaultEntryRecord := by
  intro rnd s t r hs ht hr
  cases State.stepTo_of_stepWith ht with
  | faulted hf => cases hs.symm.trans hf
  | fetchFault _ hpc =>
    cases hr
    have hlt := s.pc.isLt
    refine ⟨rfl, (if_neg hpc).symm, fun _ => ?_, fun hne => absurd rfl hne, by simp⟩
    rw [BitVec.toNat_ofNat]
    omega
  | decodeFault _ hpc hd =>
    cases hr
    have hwf := FaultRecord.wellFormed_decode (w := s.wordAtPc) hpc
    exact ⟨rfl, (if_pos hpc).symm, hwf.addrRange, hwf.addrZero, hwf.notRegIndex⟩
  | executed _ hpc hd ht =>
    have hrec := State.execFault_of_execWith hs ht hr
    have hwf := FaultRecord.wellFormed_execFault hpc hrec
    refine ⟨State.pc_of_execFault hrec, ?_, hwf.addrRange, hwf.addrZero, hwf.notRegIndex⟩
    rw [if_pos hpc, State.word_of_execFault hrec, encode_of_decodeWord hd]

/-! ## What LOAD, TIMER_TICK and SET_KEY can change -/

section HostFrames
variable (s : State)

theorem State.load_frame (bytes : List Byte) : (s.load bytes).2 = { s with mem := (s.load bytes).2.mem } := by
  unfold State.load
  split
  · rfl
  · split <;> rfl

theorem State.timerTick_frame : s.timerTick = { s with dt := s.timerTick.dt, st := s.timerTick.st } := by
  unfold State.timerTick
  split <;> rfl

theorem State.setKey_frame (code : Nat) (pressed : Bool) :
    s.setKey code pressed = { s with keys := (s.setKey code pressed).keys } := by
  unfold State.setKey
  split
  · rfl
  · split <;> rfl

@[simp] theorem State.load_fault (bytes : List Byte) : (s.load bytes).2.fault = s.fault := by
  rw [State.load_frame]

@[simp] theorem State.load_keys (bytes : List Byte) : (s.load bytes).2.keys = s.keys := by
  rw [State.load_frame]

@[simp] theorem State.timerTick_fault : s.timerTick.fault = s.fault := by
  rw [State.timerTick_frame]

@[simp] theorem State.timerTick_keys : s.timerTick.keys = s.keys := by
  rw [State.timerTick_frame]

@[simp] theorem State.setKey_fault (code : Nat) (pressed : Bool) : (s.setKey code pressed).fault = s.fault := by
  rw [State.setKey_frame]

end HostFrames

/-- Settles O12: the record of an execute fault is its instruction's, fetch and decode come before execute, and the
other operations of the host write no record. -/
theorem causeByOperation : Obligations.CauseByOperation := by
  refine ⟨fun rnd i s t r hs ht hr => State.canRaise_of_execFault (State.execFault_of_execWith hs ht hr),
    fun rnd s hs hpc => ⟨_, _, instructionCycle_of_gt hs (by omega), rfl, rfl⟩,
    fun rnd s e hs hpc hd => ⟨_, _, instructionCycle_of_error hs hpc hd, rfl, rfl⟩, ?_⟩
  intro op s t reply hop hs ht
  cases op with
  | step rnd => exact absurd rfl (hop rnd)
  | reset => cases ht; rfl
  | load bytes => cases ht; rw [State.load_fault, hs]
  | timerTick => cases ht; rw [State.timerTick_fault, hs]
  | setKey code pressed => cases ht; rw [State.setKey_fault, hs]
  | readFb | readSound | readStatus => cases ht; exact hs

/-! ## The reply of STEP, and the fault state -/

/-- A STEP replies with the fault record of the state it leaves. -/
theorem hostStep_step {rnd : Byte} {s t : State} (h : stepWith rnd s = .next t) :
    hostStep (.step rnd) s = .next (.stepped t.fault, t) := by
  simp only [hostStep, h, stepReply]

/-- Settles O60. -/
theorem stepReplyShowsFault : Obligations.StepReplyShowsFault := by
  intro rnd s
  obtain ⟨t, ht⟩ := (stepAlwaysAnswersNext s).2.1 rnd
  exact ⟨t, ht, hostStep_step ht⟩

theorem State.timerTick_of_faulted {s : State} (h : s.fault ≠ none) : s.timerTick = s :=
  if_pos (Option.isSome_iff_ne_none.2 h)

theorem State.setKey_of_faulted {s : State} (h : s.fault ≠ none) (code : Nat) (pressed : Bool) :
    s.setKey code pressed = s :=
  if_pos (Option.isSome_iff_ne_none.2 h)

/-- Settles O14, operation by operation. -/
theorem faultStateIsTerminal : Obligations.FaultStateIsTerminal := by
  intro s f hf
  have hne : s.fault ≠ none := by simp [hf]
  refine ⟨instructionCycle_of_faulted exec s f hf,
    fun rnd => ⟨_, hostStep_step (instructionCycle_of_faulted (execWith rnd) s f hf)⟩, fun bytes => ?_, ?_,
    fun code pressed => ?_, ⟨_, rfl⟩, rfl, ⟨s.readStatus, rfl, ?_⟩, ⟨_, rfl, rfl⟩⟩
  · rw [hostStep, State.load_of_faulted hne]
  · rw [hostStep, State.timerTick_of_faulted hne]
  · rw [hostStep, State.setKey_of_faulted hne]
  · rw [State.readStatus_of_faulted hf]

/-! ## TIMER_TICK (rule R281) -/

/-- Subtraction of naturals floors at 0, as a tick does. -/
theorem tickDown_toNat (b : Byte) : (tickDown b).toNat = b.toNat - 1 := by
  unfold tickDown
  split
  · bv_omega
  · omega

theorem tickDown_iterate_toNat (k : Nat) (b : Byte) : (tickDown^[k] b).toNat = b.toNat - k := by
  induction k with
  | zero => rfl
  | succ k ih => rw [Function.iterate_succ_apply', tickDown_toNat, ih, Nat.sub_sub]

theorem State.timerTick_of_running {s : State} (h : s.fault = none) :
    s.timerTick = { s with dt := tickDown s.dt, st := tickDown s.st } := by
  simp [State.timerTick, h]

/-- In a running block k ticks act on each timer alone. -/
theorem State.timerTick_iterate (k : Nat) {s : State} (h : s.fault = none) :
    State.timerTick^[k] s = { s with dt := tickDown^[k] s.dt, st := tickDown^[k] s.st } := by
  induction k with
  | zero => rfl
  | succ k ih =>
    simp only [Function.iterate_succ_apply', ih]
    exact State.timerTick_of_running h

theorem State.soundOn_iff (s : State) : s.soundOn = true ↔ s.st ≠ 0 := by
  rw [State.soundOn, decide_eq_true_iff, Ne, ← BitVec.toNat_inj]
  exact Nat.pos_iff_ne_zero

/-- Settles O49, by induction on the number of ticks. -/
theorem timerTickFloorsAtZero : Obligations.TimerTickFloorsAtZero := by
  refine ⟨fun k s hs => ⟨_, State.timerTick_iterate k hs, rfl, ?_, ?_⟩, fun s => State.timerTick_of_faulted,
    fun s => ⟨rfl, s.soundOn_iff⟩⟩
  · exact tickDown_iterate_toNat k s.dt
  · exact tickDown_iterate_toNat k s.st

/-! ## SET_KEY and the key latch (rule R283) -/

section KeyLatch
variable (s : State)

theorem State.setKey_of_gt {code : Nat} (h : 15 < code) (pressed : Bool) : s.setKey code pressed = s := by
  unfold State.setKey
  split
  · rfl
  · exact dif_neg (by omega)

theorem State.setKey_keys_of_running (hs : s.fault = none) (code : Nat) (pressed : Bool) (k : Fin 16) :
    (s.setKey code pressed).keys[k.val] = if code = k.val then pressed else s.keys[k.val] := by
  by_cases hcode : code < 16
  · simp [State.setKey, hs, hcode, Vector.getElem_set]
  · have hne : code ≠ k.val := by omega
    rw [if_neg hne]
    simp only [s.setKey_of_gt (by omega : 15 < code)]

theorem State.isPressed_iff (k : Nat) : s.isPressed k = true ↔ ∃ h : k < 16, s.keys[k] = true := by
  by_cases h : k < 16
  · rw [State.isPressed_of_lt s k h, exists_prop_of_true h]
  · rw [State.isPressed_of_ge s k h]
    exact iff_of_false Bool.false_ne_true fun ⟨hk, _⟩ => h hk

theorem State.Effect.keys_eq {s t : State} {i : Instr} (h : s.Effect i t) : t.keys = s.keys := by
  cases h <;> rfl

/-- No instruction writes the key latch, whether it raises a fault or not. -/
theorem State.afterExec_keys (i : Instr) : (s.afterExec i).keys = s.keys := by
  by_cases hrun : s.RunsInstr i
  · exact (State.effect_afterExec hrun).keys_eq
  · obtain ⟨v, mem, draws, -, he⟩ := State.afterExec_of_not_runsInstr hrun
    rw [he]

theorem execWith_keys {rnd : Byte} {i : Instr} {s t : State} (ht : execWith rnd i s = .next t) : t.keys = s.keys := by
  have hexec (he : exec i s = .next t) : t.keys = s.keys := State.afterExec_eq he ▸ s.afterExec_keys i
  cases i with
  | rndByte x kk => cases ht; rfl
  | _ => exact hexec ht

theorem stepWith_keys {rnd : Byte} {s t : State} (ht : stepWith rnd s = .next t) : t.keys = s.keys := by
  cases State.stepTo_of_stepWith ht with
  | executed _ _ _ hexec => exact execWith_keys hexec
  | faulted | fetchFault | decodeFault => rfl

end KeyLatch

/-- Settles O51: SET_KEY is one write of the latch, the key wait searches it from code 0 up, and a STEP keeps it. -/
theorem setKeyWritesLatch : Obligations.SetKeyWritesLatch := by
  refine ⟨fun s code pressed hs => ⟨s.setKey_frame code pressed, s.setKey_keys_of_running hs code pressed⟩,
    fun s code pressed h => h.elim (State.setKey_of_faulted · code pressed) (s.setKey_of_gt · pressed),
    State.isPressed_iff, fun s => ⟨?_, fun k hk => ?_⟩, ?_⟩
  · constructor
    · intro h k
      rw [← State.isPressed_of_lt s k.val k.isLt, s.pressedKey_none.1 h k.val k.isLt]
    · exact State.pressedKey_of_no_key
  · obtain ⟨hlt, hpressed, hlow⟩ := State.pressedKey_some s k hk
    refine ⟨hlt, (State.isPressed_of_lt s k hlt).symm.trans hpressed, fun j hj => ?_⟩
    rw [← State.isPressed_of_lt s j.val j.isLt, hlow j.val hj]
  · intro op s t reply hreset hset ht _
    cases op with
    | reset => exact absurd rfl hreset
    | setKey code pressed => exact absurd rfl (hset code pressed)
    | step rnd => exact stepWith_keys (stepReply_eq_next ht)
    | load bytes => cases ht; exact s.load_keys bytes
    | timerTick => cases ht; exact s.timerTick_keys
    | readFb | readSound | readStatus => cases ht; rfl

/-! ## READ_FB (rule R284) -/

/-- READ_FB answers the rows one after another. -/
theorem State.readFb_eq_flatten (s : State) : s.readFb = s.fb.flatten.toList := by
  have h : s.fb.flatten.toList = ((s.fb.toArray.map Vector.toArray).flatten).toList := rfl
  rw [h, Array.toList_flatten, Array.toList_map, List.map_map]
  rfl

/-- Settles O52: element r * 64 + c of the rows put one after another is element c of row r. -/
theorem readFbIsRowMajor : Obligations.ReadFbIsRowMajor := by
  intro s
  refine ⟨s.readFb, rfl, ?_, fun r c => ?_, rfl⟩
  · rw [State.readFb_eq_flatten, Vector.length_toList]
  · have hlt : r.val * 64 + c.val < 32 * 64 := by omega
    have hrow : (r.val * 64 + c.val) / 64 = r.val := by omega
    have hcol : (r.val * 64 + c.val) % 64 = c.val := by omega
    rw [State.readFb_eq_flatten, Vector.getElem?_toList, Vector.getElem?_eq_getElem hlt, Vector.getElem_flatten]
    simp only [hrow, hcol, Framebuffer.pixel]

end Sys2Proof.Machine

/-! # What a program and its host may rely on (70_reset_and_hazards.md) -/

namespace Sys2Proof.Machine

/-! ## What a STEP can write -/

section StepWrites
variable {s t : State} {rnd : Byte}

/-- The execute stage of STEP(rnd): without a fault it writes what the instruction's kind names, with one at most
registers, memory, the counter of free values and the record (log entry 3). -/
theorem State.effect_or_fault_of_execWith {i : Instr} (ht : execWith rnd i s = .next t) :
    s.Effect i t ∨ ∃ v mem draws fault, t = { s with v := v, mem := mem, draws := draws, fault := fault } := by
  by_cases hrnd : ∃ x kk, i = .rndByte x kk
  · obtain ⟨x, kk, rfl⟩ := hrnd
    cases ht
    exact .inl (.random x kk _)
  · rw [execWith_of_ne_rndByte fun x kk he => hrnd ⟨x, kk, he⟩] at ht
    obtain rfl := State.afterExec_eq ht
    by_cases hrun : s.RunsInstr i
    · exact .inl (State.effect_afterExec hrun)
    · obtain ⟨v, mem, draws, -, he⟩ := State.afterExec_of_not_runsInstr hrun
      exact .inr ⟨v, mem, draws, _, he⟩

/-- A STEP either has the effect of the instruction at pc, or it raised a fault or found one. -/
theorem State.effect_or_fault_of_stepWith (ht : stepWith rnd s = .next t) :
    (∃ i, decodeWord s.wordAtPc = .ok i ∧ s.Effect i t) ∨
      ∃ v mem draws fault, t = { s with v := v, mem := mem, draws := draws, fault := fault } := by
  cases State.stepTo_of_stepWith ht with
  | executed _ _ hd hexec => exact (State.effect_or_fault_of_execWith hexec).imp_left fun he => ⟨_, hd, he⟩
  | faulted | fetchFault | decodeFault => exact .inr ⟨_, _, _, _, rfl⟩

/-- A STEP keeps the configuration (rule R323). -/
theorem stepWith_cfg (ht : stepWith rnd s = .next t) : t.cfg = s.cfg := by
  obtain ⟨i, -, he⟩ | ⟨v, mem, draws, fault, rfl⟩ := State.effect_or_fault_of_stepWith ht
  · cases he <;> rfl
  · rfl

/-- A STEP keeps DT, unless the word at pc is an Fx15 (10_state.md rule R32). -/
theorem stepWith_dt (ht : stepWith rnd s = .next t) :
    t.dt = s.dt ∨ ∃ x, decodeWord s.wordAtPc = .ok (.ldDtVx x) := by
  obtain ⟨i, hd, he⟩ | ⟨v, mem, draws, fault, rfl⟩ := State.effect_or_fault_of_stepWith ht
  · cases he with
    | delay x => exact .inr ⟨x, hd⟩
    | _ => exact .inl rfl
  · exact .inl rfl

end StepWrites

/-- Settles O19, operation by operation. -/
theorem configurationNeverChanges : Obligations.ConfigurationNeverChanges := by
  intro op s t reply ht
  cases op with
  | step rnd => exact stepWith_cfg (stepReply_eq_next ht)
  | load bytes => cases ht; rw [State.load_frame]
  | timerTick => cases ht; rw [State.timerTick_frame]
  | setKey code pressed => cases ht; rw [State.setKey_frame]
  | reset | readFb | readSound | readStatus => cases ht; rfl

theorem State.timerTick_dt_le (s : State) : s.timerTick.dt.toNat ≤ s.dt.toNat := by
  by_cases hs : s.fault = none
  · rw [State.timerTick_of_running hs, tickDown_toNat]
    exact Nat.sub_le _ _
  · rw [State.timerTick_of_faulted hs]

/-- Settles O50: a tick lowers DT, RESET clears it, and a STEP writes it by Fx15 alone. The model keeps DT on a fault
(log entry 3), so the premise that leaves out a STEP that raises one is not used. -/
theorem delayTimerNeverRises : Obligations.DelayTimerNeverRises := by
  intro op s t reply ht _
  cases op with
  | step rnd =>
    exact (stepWith_dt (stepReply_eq_next ht)).imp (fun h => by rw [h]) fun ⟨x, hd⟩ => ⟨rnd, x, rfl, hd⟩
  | reset => cases ht; exact .inl (Nat.zero_le _)
  | load bytes => cases ht; rw [State.load_frame]; exact .inl le_rfl
  | timerTick => cases ht; exact .inl s.timerTick_dt_le
  | setKey code pressed => cases ht; rw [State.setKey_frame]; exact .inl le_rfl
  | readFb | readSound | readStatus => cases ht; exact .inl le_rfl

/-! ## The conditions of rule R329 -/

/-- Settles O13, along the cycle: the fetch, the decoder and the instruction's own condition. -/
theorem stepFaultsExactlyOnBrokenCondition : Obligations.StepFaultsExactlyOnBrokenCondition := by
  intro s hs
  constructor
  · rintro ⟨hpc, i, hd, hrun⟩
    refine ⟨_, (instructionCycle_of_ok hs hpc hd).trans (exec_eq_next_afterExec i s), ?_⟩
    rw [(State.effect_afterExec hrun).fault_eq, hs]
  · intro hunsafe
    by_cases hpc : s.pc.toNat ≤ 0xFFE
    · cases hd : decodeWord s.wordAtPc with
      | error e => exact ⟨_, _, instructionCycle_of_error hs hpc hd, rfl⟩
      | ok i =>
        have hrun : ¬ s.RunsInstr i := fun h => hunsafe ⟨hpc, i, hd, h⟩
        obtain ⟨r, hr⟩ := Option.ne_none_iff_exists'.1 (State.execFault_ne_none hrun)
        exact ⟨_, r, (instructionCycle_of_ok hs hpc hd).trans (exec_eq_next_afterExec i s),
          (State.afterExec_fault_of_not_runsInstr hrun).trans hr⟩
    · exact ⟨_, _, instructionCycle_of_gt hs hpc, rfl⟩

/-! ## Boot (rule R321) -/

/-- A ROM that fits above ROM_BASE is loaded (20_memory.md rule R71). -/
theorem State.load_of_fits {s : State} {bytes : List Byte} (hs : s.fault = none)
    (hfits : romBase + bytes.length ≤ 4096) :
    s.load bytes = (.ok, { s with mem := s.mem.setList romBase bytes }) := by
  rw [State.load_of_running hs, if_neg (Nat.not_lt.2 hfits)]

/-- With pc at ROM_BASE the word at pc is that of the ROM's first two bytes, big-endian (20_memory.md rule R63). -/
theorem State.wordAtPc_of_rom {s : State} (hpc : s.pc.toNat = romBase) (b0 b1 : Byte) (rest : List Byte) :
    State.wordAtPc { s with mem := s.mem.setList romBase (b0 :: b1 :: rest) } = wordOfBytes b0 b1 := by
  have hget (j : Nat) (h : j < (b0 :: b1 :: rest).length) := Memory.get_setList_add _ s.mem romBase h
  simp only [State.wordAtPc, hpc]
  exact congrArg₂ wordOfBytes (hget 0 (by simp)) (hget 1 (by simp))

/-- Settles O20: RESET clears the fault and points pc at ROM_BASE, so the ROM is loaded and its first word is fetched. -/
theorem bootRunsFirstRomWord : Obligations.BootRunsFirstRomWord := by
  intro s b0 b1 rest rnd hlen
  have hfits : romBase + (b0 :: b1 :: rest).length ≤ 4096 := by
    simp only [romBase, List.length_cons]
    omega
  rw [State.load_of_fits rfl hfits]
  refine ⟨rfl, rfl, ?_⟩
  rw [stepWith, instructionCycle_of_running _ _ rfl, State.wordAtPc_of_rom rfl]
  exact if_pos (show (0x200 : Word).toNat ≤ 0xFFE by decide)

/-! ## The idle state (rule R334) -/

section Idle
variable {pc : Word}

/-- The target of the 1nnn at pc that jumps to itself. -/
theorem addrOperand_setWidth (hpc : pc.toNat ≤ 0xFFE) : addrOperand (pc.setWidth 12) = pc := by
  apply BitVec.eq_of_toNat_eq
  rw [addrOperand, BitVec.zeroExtend_eq_setWidth, BitVec.toNat_setWidth, BitVec.toNat_setWidth]
  omega

/-- The word of rule R334 is the encoding of the jump to pc: pc has no bit in common with the opcode. -/
theorem encode_jp_setWidth (hpc : pc.toNat ≤ 0xFFE) : encode (.jp (pc.setWidth 12)) = 0x1000 ||| pc := by
  have hor : 2 ^ 12 * 1 + pc.toNat = 2 ^ 12 * 1 ||| pc.toNat := Nat.two_pow_add_eq_or_of_lt (by omega) 1
  apply BitVec.eq_of_toNat_eq
  rw [encode, formatNNN_toNat, BitVec.toNat_setWidth, Nat.mod_eq_of_lt (by omega), BitVec.toNat_or]
  exact hor

end Idle

/-- Settles O54: the word at pc decodes to the jump to pc, which sets pc to what it is. -/
theorem idleStateIsFixed : Obligations.IdleStateIsFixed := by
  rintro s ⟨hs, hpc, hw⟩
  have hd : decodeWord s.wordAtPc = .ok (.jp (s.pc.setWidth 12)) :=
    decodeWord_eq_ok_iff.2 ((encode_jp_setWidth hpc).trans hw.symm)
  have hjp : execJp (s.pc.setWidth 12) s = .next s := by
    rw [execJp, addrOperand_setWidth hpc, State.setPc]
  exact ⟨(instructionCycle_of_ok hs hpc hd).trans hjp, fun _ => (instructionCycle_of_ok hs hpc hd).trans hjp⟩

end Sys2Proof.Machine

/-! # Sample words of the opcode map (30_encoding.md rule R86) -/

namespace Sys2Proof

/-- Settles O1: each of the eight legal words is its row's sample word, and 0x01E0 is of family 0x0 but neither 0x00E0
nor 0x00EE (rule R87). -/
theorem decodeSampleWords : Obligations.DecodeSampleWords :=
  have hillegal : IllegalWord 0x01E0 := .inl (by decide)
  ⟨decode_word_cls, decode_word_jp, decode_word_seByte, decode_word_addReg, decode_word_ldI, decode_word_drw,
    decode_word_skp, decode_word_ldRegs, (decodeWord_rejectsIff 0x01E0).1 hillegal⟩

end Sys2Proof
